-- ==== Sys2Proof/Word.lean ====
section
/-! DEFINITION. The widths of the machine's values (00_scope.md R3): nibbles, bytes, 12-bit addresses, 16-bit words.
Every value is unsigned (00_scope.md R11). -/

namespace Sys2Proof

/-- A 4-bit half-byte: a register index or a row count (00_scope.md R10, R14). -/
abbrev Nibble := BitVec 4

/-- An 8-bit value: data, general registers, the two timers (00_scope.md R3). -/
abbrev Byte := BitVec 8

/-- A 12-bit address operand `nnn` (00_scope.md R14). -/
abbrev Addr12 := BitVec 12

/-- A 16-bit value: an instruction word, `pc`, `I`, a return address (00_scope.md R3). -/
abbrev Word := BitVec 16

end Sys2Proof
end

