-- ==== Sys2Proof/Config.lean ====
section
/-! DEFINITION. The implementation parameters of 00_scope.md R6, and the values the spec leaves free, each an opaque
constant that no proof can evaluate. -/

namespace Sys2Proof

/-- `MEM_SIZE`: addresses 0x000 to 0xFFF (00_scope.md R6). -/
abbrev Config.memSize : Nat := 4096

/-- `FONT_BASE` (00_scope.md R6). -/
abbrev Config.fontBase : Nat := 0

/-- `FONT_SIZE`: the font region is 0x000 to 0x04F (00_scope.md R6, 20_memory.md R71). -/
abbrev Config.fontSize : Nat := 80

/-- `GLYPH_BYTES` (00_scope.md R6). -/
abbrev Config.glyphBytes : Nat := 5

/-- `PROG_BASE`, the load address and the reset value of `pc` (00_scope.md R6). -/
abbrev Config.progBase : Nat := 0x200

/-- `PROG_MAX`: the longest ROM that loads (00_scope.md R6, 20_memory.md R92). -/
abbrev Config.progMax : Nat := Config.memSize - Config.progBase

/-- `TICK_CLAMP`: the largest decrement of one `tick_timers` (00_scope.md R6). -/
abbrev Config.tickClamp : Nat := 255

/-- `CYCLE_HZ`, host pacing only: no rule depends on it (00_scope.md R6, 70_reset_and_hazards.md R298). -/
abbrev Config.cycleHz : Nat := 500

/-- `TIMER_HZ`, host pacing only: no rule depends on it (00_scope.md R6, 70_reset_and_hazards.md R298). -/
abbrev Config.timerHz : Nat := 60

/-- `ABSENT_ROWS`: the rows of 30_encoding.md R125 that decode as unrecognized; the spec's default is none
(decision D2, assumption 4). -/
def Config.absentRows : List Nat := []

/-- Glyphs 0 to 7 of the default `FONT_ROM` (20_memory.md R79). -/
def Config.fontLow : List Byte :=
  [0xF0, 0x90, 0x90, 0x90, 0xF0] ++ [0x20, 0x60, 0x20, 0x20, 0x70] ++ [0xF0, 0x10, 0xF0, 0x80, 0xF0] ++
  [0xF0, 0x10, 0xF0, 0x10, 0xF0] ++ [0x90, 0x90, 0xF0, 0x10, 0x10] ++ [0xF0, 0x80, 0xF0, 0x10, 0xF0] ++
  [0xF0, 0x80, 0xF0, 0x90, 0xF0] ++ [0xF0, 0x10, 0x20, 0x40, 0x40]

/-- Glyphs 8 to F of the default `FONT_ROM` (20_memory.md R79). -/
def Config.fontHigh : List Byte :=
  [0xF0, 0x90, 0xF0, 0x90, 0xF0] ++ [0xF0, 0x90, 0xF0, 0x10, 0xF0] ++ [0xF0, 0x90, 0xF0, 0x90, 0x90] ++
  [0xE0, 0x90, 0xE0, 0x90, 0xE0] ++ [0xF0, 0x80, 0x80, 0x80, 0xF0] ++ [0xE0, 0x90, 0x90, 0x90, 0xE0] ++
  [0xF0, 0x80, 0xF0, 0x80, 0xF0] ++ [0xF0, 0x80, 0xF0, 0x80, 0x80]

/-- `FONT_ROM`, the 80-byte table at 0x000, at the spec's default (20_memory.md R79, decision D8, assumption 5). -/
def Config.fontRom : List Byte := Config.fontLow ++ Config.fontHigh

/-- FREE VALUE: the random byte of the n-th `Cxkk` for which the host's byte is not given as data
(41_alu.md R191, decision D28, assumption 3). It has no body: a claim about it holds for every generator. -/
opaque Config.randomByte : Nat → Byte

/-- FREE VALUE: how the disassembler prints an address (30_encoding.md R132 gives no format; assumption 12). -/
opaque Config.formatAddress : Nat → String

/-- FREE VALUE: how the disassembler prints the raw word (30_encoding.md R132 gives no format; assumption 12). -/
opaque Config.formatRawWord : Word → String

/-- FREE VALUE: the reason text of an `UNRECOGNIZED` line (30_encoding.md R132 gives none; assumption 12). -/
opaque Config.unrecognizedReason : Word → String

end Sys2Proof
end

