-- ==== Sys2Proof/Syntax.lean ====
section
/-! DEFINITION. The 35 instructions of 30_encoding.md R125 (spec/opcode_table.json), one constructor per row, in the table's
order. `x` and `y` name general registers, `n` is a row count, `kk` a byte immediate, `nnn` a 12-bit address
(00_scope.md R14). -/

namespace Sys2Proof

/-- The decoded operation (30_encoding.md R125; the variant names are the table's mnemonics). -/
inductive Instr where
  /-- `00E0` -/
  | clearScreen
  /-- `00EE` -/
  | ret
  /-- `0nnn`, other than `00E0` and `00EE` -/
  | sysAddr (nnn : Addr12)
  /-- `1nnn` -/
  | jump (nnn : Addr12)
  /-- `2nnn` -/
  | call (nnn : Addr12)
  /-- `3xkk` -/
  | skipEqByte (x : Nibble) (kk : Byte)
  /-- `4xkk` -/
  | skipNeByte (x : Nibble) (kk : Byte)
  /-- `5xy0` -/
  | skipEqReg (x y : Nibble)
  /-- `6xkk` -/
  | loadByte (x : Nibble) (kk : Byte)
  /-- `7xkk` -/
  | addByte (x : Nibble) (kk : Byte)
  /-- `8xy0` -/
  | loadReg (x y : Nibble)
  /-- `8xy1` -/
  | orReg (x y : Nibble)
  /-- `8xy2` -/
  | andReg (x y : Nibble)
  /-- `8xy3` -/
  | xorReg (x y : Nibble)
  /-- `8xy4` -/
  | mathAdd (x y : Nibble)
  /-- `8xy5` -/
  | mathSub (x y : Nibble)
  /-- `8xy6`; `y` is printed by the disassembler and has no effect (R126, R131) -/
  | shiftRight (x y : Nibble)
  /-- `8xy7` -/
  | mathSubN (x y : Nibble)
  /-- `8xyE`; `y` is printed by the disassembler and has no effect (R126, R131) -/
  | shiftLeft (x y : Nibble)
  /-- `9xy0` -/
  | skipNeReg (x y : Nibble)
  /-- `Annn` -/
  | loadIndex (nnn : Addr12)
  /-- `Bnnn` -/
  | jumpV0 (nnn : Addr12)
  /-- `Cxkk` -/
  | rand (x : Nibble) (kk : Byte)
  /-- `Dxyn` -/
  | draw (x y n : Nibble)
  /-- `Ex9E` -/
  | skipKeyPressed (x : Nibble)
  /-- `ExA1` -/
  | skipKeyNotPressed (x : Nibble)
  /-- `Fx07` -/
  | loadDelay (x : Nibble)
  /-- `Fx0A` -/
  | keyGet (x : Nibble)
  /-- `Fx15` -/
  | setDelay (x : Nibble)
  /-- `Fx18` -/
  | setSound (x : Nibble)
  /-- `Fx1E` -/
  | addIndex (x : Nibble)
  /-- `Fx29` -/
  | fontGlyph (x : Nibble)
  /-- `Fx33` -/
  | bcd (x : Nibble)
  /-- `Fx55` -/
  | regDump (x : Nibble)
  /-- `Fx65` -/
  | regLoad (x : Nibble)
  deriving DecidableEq, Repr

end Sys2Proof
end

