-- ==== Sys2Proof/WellFormed.lean ====
section
/-! DEFINITION. Which terms of `Instr` are instructions. Every field value of every row is legal, but for `0nnn`: the words
`00E0` and `00EE` are the rows ClearScreen and Return, never SysAddr (30_encoding.md R125, R128). -/

namespace Sys2Proof

/-- A term is well formed when its row of 30_encoding.md R125 has a word for it. -/
def Instr.wf : Instr → Bool
  | .sysAddr nnn => nnn != 0x0E0 && nnn != 0x0EE
  | .clearScreen | .ret | .jump _ | .call _ | .skipEqByte _ _ | .skipNeByte _ _ | .skipEqReg _ _ => true
  | .loadByte _ _ | .addByte _ _ | .loadReg _ _ | .orReg _ _ | .andReg _ _ | .xorReg _ _ => true
  | .mathAdd _ _ | .mathSub _ _ | .shiftRight _ _ | .mathSubN _ _ | .shiftLeft _ _ => true
  | .skipNeReg _ _ | .loadIndex _ | .jumpV0 _ | .rand _ _ | .draw _ _ _ => true
  | .skipKeyPressed _ | .skipKeyNotPressed _ | .loadDelay _ | .keyGet _ | .setDelay _ | .setSound _ => true
  | .addIndex _ | .fontGlyph _ | .bcd _ | .regDump _ | .regLoad _ => true

end Sys2Proof
end

