-- ==== Sys2Proof/Decode.lean ====
section
/-! DEFINITION. The decoder of 30_encoding.md R120 to R130, total on every word and every byte string and rejecting by name;
then the encoder, written from the same layouts; then the opcode table of R125 as data, and the words of
spec/opcode_table.json laid out as the hardware stores them. -/

namespace Sys2Proof

/-- Why the decoder refuses: the word matches no row (30_encoding.md R127), or the bytes hold no whole word. -/
inductive DecodeError where
  /-- 30_encoding.md R127; it carries the raw word. -/
  | unrecognizedOpcode (w : Word)
  /-- Fewer than the two bytes of an instruction (30_encoding.md R120); never met by a step, which fetches two. -/
  | truncated (length : Nat)
  deriving DecidableEq, Repr

/-! ### Fields (00_scope.md R10, R14; 30_encoding.md R122) -/

/-- `a = w[15:12]`. -/
def nibbleA (w : Word) : Nibble := w.extractLsb' 12 4
/-- `b = w[11:8]`, the register index `x`. -/
def nibbleB (w : Word) : Nibble := w.extractLsb' 8 4
/-- `c = w[7:4]`, the register index `y`. -/
def nibbleC (w : Word) : Nibble := w.extractLsb' 4 4
/-- `d = w[3:0]`, the row count `n` or a function code. -/
def nibbleD (w : Word) : Nibble := w.extractLsb' 0 4
/-- `kk = c : d`. -/
def fieldKK (w : Word) : Byte := w.extractLsb' 0 8
/-- `nnn = b : c : d`. -/
def fieldNNN (w : Word) : Addr12 := w.extractLsb' 0 12

/-! ### The decoder (30_encoding.md R123) -/

/-- The two-register group `8xyd`, told apart by `d`. -/
def decodeMath (x y d : Nibble) : Option Instr :=
  if d = 0x0 then some (.loadReg x y)
  else if d = 0x1 then some (.orReg x y)
  else if d = 0x2 then some (.andReg x y)
  else if d = 0x3 then some (.xorReg x y)
  else if d = 0x4 then some (.mathAdd x y)
  else if d = 0x5 then some (.mathSub x y)
  else if d = 0x6 then some (.shiftRight x y)
  else if d = 0x7 then some (.mathSubN x y)
  else if d = 0xE then some (.shiftLeft x y)
  else none

/-- The key group `Exkk`, told apart by `kk`. -/
def decodeKey (x : Nibble) (kk : Byte) : Option Instr :=
  if kk = 0x9E then some (.skipKeyPressed x)
  else if kk = 0xA1 then some (.skipKeyNotPressed x)
  else none

/-- The group `Fxkk`, told apart by `kk`. -/
def decodeMisc (x : Nibble) (kk : Byte) : Option Instr :=
  if kk = 0x07 then some (.loadDelay x)
  else if kk = 0x0A then some (.keyGet x)
  else if kk = 0x15 then some (.setDelay x)
  else if kk = 0x18 then some (.setSound x)
  else if kk = 0x1E then some (.addIndex x)
  else if kk = 0x29 then some (.fontGlyph x)
  else if kk = 0x33 then some (.bcd x)
  else if kk = 0x55 then some (.regDump x)
  else if kk = 0x65 then some (.regLoad x)
  else none

/-- The group `0nnn`: `00E0` and `00EE` are taken before SysAddr (30_encoding.md R128). -/
def decodeSystem (w : Word) : Instr :=
  if w = 0x00E0 then .clearScreen
  else if w = 0x00EE then .ret
  else .sysAddr (fieldNNN w)

/-- The exact procedure of 30_encoding.md R123: on `a` first, then on more nibbles; `none` is Unrecognized. -/
def decodeRow (w : Word) : Option Instr :=
  let a := nibbleA w
  let x := nibbleB w
  let y := nibbleC w
  let d := nibbleD w
  if a = 0x0 then some (decodeSystem w)
  else if a = 0x1 then some (.jump (fieldNNN w))
  else if a = 0x2 then some (.call (fieldNNN w))
  else if a = 0x3 then some (.skipEqByte x (fieldKK w))
  else if a = 0x4 then some (.skipNeByte x (fieldKK w))
  else if a = 0x5 then (if d = 0 then some (.skipEqReg x y) else none)
  else if a = 0x6 then some (.loadByte x (fieldKK w))
  else if a = 0x7 then some (.addByte x (fieldKK w))
  else if a = 0x8 then decodeMath x y d
  else if a = 0x9 then (if d = 0 then some (.skipNeReg x y) else none)
  else if a = 0xA then some (.loadIndex (fieldNNN w))
  else if a = 0xB then some (.jumpV0 (fieldNNN w))
  else if a = 0xC then some (.rand x (fieldKK w))
  else if a = 0xD then some (.draw x y d)
  else if a = 0xE then decodeKey x (fieldKK w)
  else decodeMisc x (fieldKK w)

/-- The row number of an instruction in 30_encoding.md R125. -/
def Instr.row : Instr → Nat
  | .clearScreen => 1
  | .ret => 2
  | .sysAddr _ => 3
  | .jump _ => 4
  | .call _ => 5
  | .skipEqByte _ _ => 6
  | .skipNeByte _ _ => 7
  | .skipEqReg _ _ => 8
  | .loadByte _ _ => 9
  | .addByte _ _ => 10
  | .loadReg _ _ => 11
  | .orReg _ _ => 12
  | .andReg _ _ => 13
  | .xorReg _ _ => 14
  | .mathAdd _ _ => 15
  | .mathSub _ _ => 16
  | .shiftRight _ _ => 17
  | .mathSubN _ _ => 18
  | .shiftLeft _ _ => 19
  | .skipNeReg _ _ => 20
  | .loadIndex _ => 21
  | .jumpV0 _ => 22
  | .rand _ _ => 23
  | .draw _ _ _ => 24
  | .skipKeyPressed _ => 25
  | .skipKeyNotPressed _ => 26
  | .loadDelay _ => 27
  | .keyGet _ => 28
  | .setDelay _ => 29
  | .setSound _ => 30
  | .addIndex _ => 31
  | .fontGlyph _ => 32
  | .bcd _ => 33
  | .regDump _ => 34
  | .regLoad _ => 35

/-- `decode(w)` of 30_encoding.md R124: exactly one instruction, or `UnrecognizedOpcode(w)`; a row in `ABSENT_ROWS`
is unrecognized too (R125). -/
def decode (w : Word) : Except DecodeError Instr :=
  match decodeRow w with
  | none => .error (.unrecognizedOpcode w)
  | some i => if Config.absentRows.contains i.row then .error (.unrecognizedOpcode w) else .ok i

/-- The big-endian halfword of two bytes (20_memory.md R75, R84): the first byte holds nibbles `a` and `b`. -/
def wordOfBytes (hi lo : Byte) : Word := BitVec.ofNat 16 (hi.toNat * 256 + lo.toNat)

/-- The byte of a word at the lower address (20_memory.md R75). -/
def highByte (w : Word) : Byte := w.extractLsb' 8 8

/-- The byte of a word at the higher address (20_memory.md R75). -/
def lowByte (w : Word) : Byte := w.extractLsb' 0 8

/-- Decode the instruction at the front of a byte string; the rest is answered with it (30_encoding.md R120). -/
def decodeBytes : List Byte → Except DecodeError (Instr × List Byte)
  | hi :: lo :: rest =>
    match decode (wordOfBytes hi lo) with
    | .ok i => .ok (i, rest)
    | .error e => .error e
  | short => .error (.truncated short.length)

/-! ### The encoder, from the layouts of 30_encoding.md R121 -/

/-- Layout `NNN`: `a : nnn`. -/
def wordNNN (a : Nat) (nnn : Addr12) : Word := BitVec.ofNat 16 (a * 4096 + nnn.toNat)

/-- Layout `XKK`: `a : x : kk`. -/
def wordXKK (a : Nat) (x : Nibble) (kk : Byte) : Word := BitVec.ofNat 16 (a * 4096 + x.toNat * 256 + kk.toNat)

/-- Layouts `XY` and `XYN`: `a : x : y : d`. -/
def wordXYN (a : Nat) (x y d : Nibble) : Word :=
  BitVec.ofNat 16 (a * 4096 + x.toNat * 256 + y.toNat * 16 + d.toNat)

/-- The word of an instruction (30_encoding.md R121, R125). Layout `X` is `XKK` with a fixed low byte. -/
def encode : Instr → Word
  | .clearScreen => 0x00E0
  | .ret => 0x00EE
  | .sysAddr nnn => wordNNN 0x0 nnn
  | .jump nnn => wordNNN 0x1 nnn
  | .call nnn => wordNNN 0x2 nnn
  | .skipEqByte x kk => wordXKK 0x3 x kk
  | .skipNeByte x kk => wordXKK 0x4 x kk
  | .skipEqReg x y => wordXYN 0x5 x y 0x0
  | .loadByte x kk => wordXKK 0x6 x kk
  | .addByte x kk => wordXKK 0x7 x kk
  | .loadReg x y => wordXYN 0x8 x y 0x0
  | .orReg x y => wordXYN 0x8 x y 0x1
  | .andReg x y => wordXYN 0x8 x y 0x2
  | .xorReg x y => wordXYN 0x8 x y 0x3
  | .mathAdd x y => wordXYN 0x8 x y 0x4
  | .mathSub x y => wordXYN 0x8 x y 0x5
  | .shiftRight x y => wordXYN 0x8 x y 0x6
  | .mathSubN x y => wordXYN 0x8 x y 0x7
  | .shiftLeft x y => wordXYN 0x8 x y 0xE
  | .skipNeReg x y => wordXYN 0x9 x y 0x0
  | .loadIndex nnn => wordNNN 0xA nnn
  | .jumpV0 nnn => wordNNN 0xB nnn
  | .rand x kk => wordXKK 0xC x kk
  | .draw x y n => wordXYN 0xD x y n
  | .skipKeyPressed x => wordXKK 0xE x 0x9E
  | .skipKeyNotPressed x => wordXKK 0xE x 0xA1
  | .loadDelay x => wordXKK 0xF x 0x07
  | .keyGet x => wordXKK 0xF x 0x0A
  | .setDelay x => wordXKK 0xF x 0x15
  | .setSound x => wordXKK 0xF x 0x18
  | .addIndex x => wordXKK 0xF x 0x1E
  | .fontGlyph x => wordXKK 0xF x 0x29
  | .bcd x => wordXKK 0xF x 0x33
  | .regDump x => wordXKK 0xF x 0x55
  | .regLoad x => wordXKK 0xF x 0x65

/-! ### The opcode table as data (30_encoding.md R125) -/

/-- One row of 30_encoding.md R125: a word selects it when `w AND mask = pattern` and `w` is not excluded. -/
structure OpRow where
  number : Nat
  pattern : Word
  mask : Word
  excludes : List Word
  deriving DecidableEq, Repr

/-- A word selects a row (30_encoding.md R125). -/
def OpRow.selects (r : OpRow) (w : Word) : Bool := (w &&& r.mask) == r.pattern && !r.excludes.contains w

/-- Rows 1 to 10. -/
def opcodeRowsA : List OpRow :=
  [⟨1, 0x00E0, 0xFFFF, []⟩, ⟨2, 0x00EE, 0xFFFF, []⟩, ⟨3, 0x0000, 0xF000, [0x00E0, 0x00EE]⟩, ⟨4, 0x1000, 0xF000, []⟩,
   ⟨5, 0x2000, 0xF000, []⟩, ⟨6, 0x3000, 0xF000, []⟩, ⟨7, 0x4000, 0xF000, []⟩, ⟨8, 0x5000, 0xF00F, []⟩,
   ⟨9, 0x6000, 0xF000, []⟩, ⟨10, 0x7000, 0xF000, []⟩]

/-- Rows 11 to 20. -/
def opcodeRowsB : List OpRow :=
  [⟨11, 0x8000, 0xF00F, []⟩, ⟨12, 0x8001, 0xF00F, []⟩, ⟨13, 0x8002, 0xF00F, []⟩, ⟨14, 0x8003, 0xF00F, []⟩,
   ⟨15, 0x8004, 0xF00F, []⟩, ⟨16, 0x8005, 0xF00F, []⟩, ⟨17, 0x8006, 0xF00F, []⟩, ⟨18, 0x8007, 0xF00F, []⟩,
   ⟨19, 0x800E, 0xF00F, []⟩, ⟨20, 0x9000, 0xF00F, []⟩]

/-- Rows 21 to 35. -/
def opcodeRowsC : List OpRow :=
  [⟨21, 0xA000, 0xF000, []⟩, ⟨22, 0xB000, 0xF000, []⟩, ⟨23, 0xC000, 0xF000, []⟩, ⟨24, 0xD000, 0xF000, []⟩,
   ⟨25, 0xE09E, 0xF0FF, []⟩, ⟨26, 0xE0A1, 0xF0FF, []⟩, ⟨27, 0xF007, 0xF0FF, []⟩, ⟨28, 0xF00A, 0xF0FF, []⟩,
   ⟨29, 0xF015, 0xF0FF, []⟩, ⟨30, 0xF018, 0xF0FF, []⟩, ⟨31, 0xF01E, 0xF0FF, []⟩, ⟨32, 0xF029, 0xF0FF, []⟩,
   ⟨33, 0xF033, 0xF0FF, []⟩, ⟨34, 0xF055, 0xF0FF, []⟩, ⟨35, 0xF065, 0xF0FF, []⟩]

/-- The 35 rows of 30_encoding.md R125. -/
def opcodeTable : List OpRow := opcodeRowsA ++ opcodeRowsB ++ opcodeRowsC

/-! ### Words of spec/opcode_table.json -/

/-- The word that the low `nbits` bits of `w` give, every bit above them 0. Each row of the table is one 16-bit word
(30_encoding.md R120), whose bit 0 is the table's bit 0. -/
def tableWord (nbits w : Nat) : Word := BitVec.ofNat 16 (w % 2 ^ nbits)

/-- What this decoder reads from the bytes, big-endian as the hardware stores them, of an instruction numbered as
spec/opcode_table.json numbers it. -/
def decodeTableWord (nbits w : Nat) : Option Instr :=
  match decodeBytes [highByte (tableWord nbits w), lowByte (tableWord nbits w)] with
  | .ok (i, _) => some i
  | .error _ => none

end Sys2Proof
end

