-- ==== Sys2Proof/Machine/Flags.lean ====
section
/-! DEFINITION. The values written to the flag register `VF` (10_state.md R33, 41_alu.md R192): each is 0 or 1. -/

namespace Sys2Proof.Machine

/-- A flag as the byte `VF` holds: 1 when it is set (10_state.md R33). -/
def flagByte (f : Bool) : Byte := if f then 1 else 0

/-- The carry of `a + b` out of bit 7 (41_alu.md R186). -/
def carryOut (a b : Byte) : Bool := decide (255 < a.toNat + b.toNat)

/-- `a - b` needs no borrow, equality included (41_alu.md R192, decision D15). -/
def noBorrow (a b : Byte) : Bool := decide (b.toNat ≤ a.toNat)

/-- The bit a right shift drops (41_alu.md R188). -/
def lowBit (a : Byte) : Bool := a.getLsbD 0

/-- The bit a left shift drops (41_alu.md R190). -/
def highBit (a : Byte) : Bool := a.getLsbD 7

end Sys2Proof.Machine
end

