-- ==== Sys2Proof/Machine/Memory.lean ====
section
/-! DEFINITION. The memory array of 20_memory.md R70 as a list of (address, byte) pairs in one canonical form: addresses
strictly rising, all below 4096, and no entry equal to what an unlisted address reads as, so that equal memories are equal
lists. -/

namespace Sys2Proof.Machine

/-- `Mem[0..4095]` (10_state.md R44, 20_memory.md R70). -/
abbrev Memory := List Host.Cell

/-- What an address no entry lists reads as: its reset contents, `FONT_ROM` in 0x000 to 0x04F and 0 elsewhere
(10_state.md R51, 20_memory.md R71; decisions D7 and D8, assumptions 1 and 5). -/
def Memory.unlisted (a : Nat) : Byte := if a < Config.fontSize then Config.fontRom.getD a 0 else 0

/-- The byte at an address (20_memory.md R70). Callers check the bound first (20_memory.md R83). -/
def Memory.byteAt : Memory → Nat → Byte
  | [], a => Memory.unlisted a
  | (b, v) :: rest, a => if a = b then v else Memory.byteAt rest a

/-- `Mem[a] <- v`, keeping the canonical form: writing what an unlisted address reads as drops the entry. Callers check
the bound first (20_memory.md R85). -/
def Memory.setByte : Memory → Nat → Byte → Memory
  | [], a, v => if v = Memory.unlisted a then [] else [(a, v)]
  | (b, w) :: rest, a, v =>
    if a < b then (if v = Memory.unlisted a then (b, w) :: rest else (a, v) :: (b, w) :: rest)
    else if a = b then (if v = Memory.unlisted a then rest else (a, v) :: rest)
    else (b, w) :: Memory.setByte rest a v

/-- `Mem[a], Mem[a+1], ... <- bytes`, one byte at a time in ascending order (20_memory.md R76). -/
def Memory.writeBytes (m : Memory) (a : Nat) : List Byte → Memory
  | [] => m
  | v :: rest => Memory.writeBytes (m.setByte a v) (a + 1) rest

/-- The `n` bytes at `a, a+1, ...` (20_memory.md R76). -/
def Memory.bytesFrom (m : Memory) (a n : Nat) : List Byte := (List.range n).map fun k => m.byteAt (a + k)

/-- The canonical form from an address upward. -/
def Memory.wfFrom (lo : Nat) : Memory → Bool
  | [] => true
  | (a, v) :: rest =>
    decide (lo ≤ a) && decide (a < Config.memSize) && (v != Memory.unlisted a) && Memory.wfFrom (a + 1) rest

/-- The canonical form: strictly rising addresses of the 4096-byte array, no entry that could be left out. -/
def Memory.wf (m : Memory) : Bool := Memory.wfFrom 0 m

end Sys2Proof.Machine
end

