-- ==== Sys2Proof/Machine/State.lean ====
section
/-! DEFINITION. All the state of the block (10_state.md R30), the conditions that stop it (60_exceptions.md R263), the
refusals, and the state after reset (10_state.md R51, 70_reset_and_hazards.md R290). -/

namespace Sys2Proof.Machine

/-- A key 0x0 to 0xF (20_memory.md R95). -/
abbrev Key := Fin 16

/-- The framebuffer `Fb[0..63, 0..31]`: 32 rows, top to bottom, of 64 cells, left to right; `true` is lit
(10_state.md R45, 20_memory.md R87). -/
abbrev Screen := Vector (Vector Bool 64) 32

/-- The fatal conditions, with the information each carries (60_exceptions.md R263). A step that raises one takes it
(Machine/Ops.lean, `raise`): `Status` holds it from then on, and every later step answers it as its fault (10_state.md
R47). All nine are the spec's own, so stopping on one is safe. -/
inductive Fault where
  /-- Code 1: the decode of a word no row matches (60_exceptions.md R264). Safe. -/
  | unrecognizedOpcode (w : Word)
  /-- Code 2: every execution of `0nnn` (60_exceptions.md R265). Safe. -/
  | unsupportedSystemCall (nnn : Addr12)
  /-- Code 3: `2nnn` with 16 return addresses held (60_exceptions.md R266). Safe. -/
  | stackOverflow
  /-- Code 4: `00EE` with the stack empty (60_exceptions.md R267). Safe. -/
  | stackUnderflow
  /-- Code 5: an access at an address of 4096 or more, by fetch, `Dxyn`, `Fx33`, `Fx55`, `Fx65`
  (60_exceptions.md R268). Safe. -/
  | addressOutOfRange (addr : Nat)
  /-- Code 6: a write of `Fx33` or `Fx55` into the font region (60_exceptions.md R269). Safe. -/
  | readOnlyWrite (addr : Nat)
  /-- Code 7: `Ex9E` or `ExA1` with a key value above 0xF (60_exceptions.md R270). Safe. -/
  | invalidKey (v : Byte)
  /-- Code 8: `Fx29` with a digit value above 0xF (60_exceptions.md R271). Safe. -/
  | invalidFontDigit (v : Byte)
  /-- Code 9: the host's `load_program` with a ROM above 3584 bytes (60_exceptions.md R272). Safe. -/
  | capacityExceeded (length : Nat)
  deriving DecidableEq, Repr

/-- What the model does not admit. No instruction and no step raises any of these. -/
inductive Refusal where
  /-- An instruction without a meaning: `exec` would raise it, and every instruction has its meaning. Safe. -/
  | notModelled (mnemonic : String)
  /-- A `load_program` other than once, after reset and before the first step (20_memory.md R94); raised by the host
  port. Safe. -/
  | loadNotAllowed
  /-- A `set_key` above 0xF (20_memory.md R95); raised by the host port. Safe. -/
  | keyOutOfRange (k : Nat)
  /-- A `step` after a failed load (60_exceptions.md R272); raised by the host port. Safe. -/
  | stepAfterFailedLoad
  deriving DecidableEq, Repr

/-- `Running` or `Faulted(e)` (10_state.md R47). -/
inductive Status where
  | running
  | faulted (e : Fault)
  deriving DecidableEq, Repr

/-- The state of the block (10_state.md R30), then two fields of the model's own for the random byte of `Cxkk`, which the
spec makes an input of the step (00_scope.md R9, 41_alu.md R191; assumption 3). -/
structure State where
  /-- `V[0..15]`, the general registers; `VF` doubles as the flag (10_state.md R31, R33). -/
  v : Vector Byte 16
  /-- `I`, the index register (10_state.md R36). -/
  i : Word
  /-- The program counter (10_state.md R37). -/
  pc : Word
  /-- `Stack[0..15]`, the return addresses (10_state.md R39). -/
  stack : Vector Word 16
  /-- `SP`, the number of slots in use, 0 to 16 (10_state.md R39). -/
  sp : Fin 17
  /-- The delay timer (10_state.md R41). -/
  dt : Byte
  /-- The sound timer (10_state.md R42). -/
  st : Byte
  /-- `Mem[0..4095]` (10_state.md R44). -/
  mem : Memory
  /-- The framebuffer (10_state.md R45). -/
  fb : Screen
  /-- `Held[0..15]`, the keys down (10_state.md R46). -/
  held : Vector Bool 16
  /-- The last key pressed and not yet consumed (10_state.md R46). -/
  latch : Option Key
  /-- `Running` or `Faulted(e)` (10_state.md R47). -/
  status : Status
  /-- The model's own: random bytes the host has supplied for the coming `Cxkk`, the next one first. -/
  randomIn : List Byte
  /-- The model's own: how many free random bytes have been drawn. -/
  draws : Nat
  deriving DecidableEq, Repr

/-- A dark screen (10_state.md R51). -/
def Screen.blank : Screen := Vector.replicate 32 (Vector.replicate 64 false)

/-- The machine right after reset (10_state.md R51, 70_reset_and_hazards.md R290); the two fields of the model's own are
assumption 3. -/
def State.reset : State where
  v := Vector.replicate 16 0
  i := 0
  pc := 0x200
  stack := Vector.replicate 16 0
  sp := 0
  dt := 0
  st := 0
  mem := []
  fb := Screen.blank
  held := Vector.replicate 16 false
  latch := none
  status := .running
  randomIn := []
  draws := 0

end Sys2Proof.Machine
end

