-- ==== Sys2Proof/Machine/Operands.lean ====
section
/-! DEFINITION. The operand forms of the instructions: a general register, its zero extension, a 12-bit address, the byte
addresses `I + k`, the registers `V0..Vx`, and the decimal digits of a byte. -/

namespace Sys2Proof.Machine

/-- Read `V[x]` (10_state.md R31). -/
def State.reg (s : State) (x : Nibble) : Byte := s.v[x.toNat]'x.isLt

/-- `zext_16` of a register's value (00_scope.md R11). -/
def zextByte (b : Byte) : Word := b.setWidth 16

/-- `zext_16(nnn)`, an address operand as stored in `pc` or `I` (30_encoding.md R122). -/
def zextAddr (nnn : Addr12) : Word := nnn.setWidth 16

/-- The address of the k-th byte of a transfer, `I + k` on unbounded naturals, never wrapped (42_index_memory.md R226,
20_memory.md R74). -/
def State.byteAddr (s : State) (k : Nat) : Nat := s.i.toNat + k

/-- How many registers `V0..Vx` are (42_index_memory.md R224). -/
def regCount (x : Nibble) : Nat := x.toNat + 1

/-- The values of `V0..Vx`, in order (42_index_memory.md R224). -/
def State.regsUpTo (s : State) (x : Nibble) : List Byte := s.v.toList.take (regCount x)

/-- The hundreds, tens and ones digits of a byte (42_index_memory.md R223). -/
def bcdDigits (b : Byte) : List Byte :=
  [BitVec.ofNat 8 (b.toNat / 100), BitVec.ofNat 8 (b.toNat / 10 % 10), BitVec.ofNat 8 (b.toNat % 10)]

/-- `font_glyph_address(d) = FONT_BASE + 5 * d` (20_memory.md R80). -/
def fontGlyphAddress (d : Byte) : Word := BitVec.ofNat 16 (Config.fontBase + Config.glyphBytes * d.toNat)

/-- A register value as a key or hex digit, when it is one: 0x0 to 0xF (43_io_timers.md R242, 42_index_memory.md R222). -/
def asHexDigit (b : Byte) : Option Key := if h : b.toNat < 16 then some ⟨b.toNat, h⟩ else none

/-- A key as a register value, zero extended (43_io_timers.md R244). -/
def keyByte (k : Key) : Byte := BitVec.ofNat 8 k.val

end Sys2Proof.Machine
end

