-- ==== Sys2Proof/Machine/Ops.lean ====
section
/-! DEFINITION. The named operations the meanings share: how a step ends, registers, the program counter, memory access,
the call stack, the screen, the keypad, the timers, the random byte and instruction fetch. -/

namespace Sys2Proof.Machine

/-- What a meaning or a step answers. -/
abbrev Result := Host.Outcome State Fault Refusal

/-! ### Updates of one component -/

/-- `V[x] <- b` (10_state.md R31). -/
def State.setReg (s : State) (x : Nibble) (b : Byte) : State := { s with v := s.v.set x.toNat b x.isLt }

/-- `pc <- t` (10_state.md R37). -/
def State.setPc (s : State) (t : Word) : State := { s with pc := t }

/-- `I <- a` (10_state.md R36). -/
def State.setIndex (s : State) (a : Word) : State := { s with i := a }

/-- `DT <- b` (10_state.md R41). -/
def State.setDelayTimer (s : State) (b : Byte) : State := { s with dt := b }

/-- `ST <- b` (10_state.md R42). -/
def State.setSoundTimer (s : State) (b : Byte) : State := { s with st := b }

/-- The memory array after a transfer (10_state.md R44). -/
def State.setMem (s : State) (m : Memory) : State := { s with mem := m }

/-- The framebuffer after a draw (10_state.md R45). -/
def State.setScreen (s : State) (f : Screen) : State := { s with fb := f }

/-- The held flags (10_state.md R46). -/
def State.setHeld (s : State) (h : Vector Bool 16) : State := { s with held := h }

/-- The last-pressed latch (10_state.md R46). -/
def State.setLatch (s : State) (k : Option Key) : State := { s with latch := k }

/-- `Status <- t` (10_state.md R47). -/
def State.setStatus (s : State) (t : Status) : State := { s with status := t }

/-- The stack pointer (10_state.md R39). -/
def State.setSp (s : State) (n : Fin 17) : State := { s with sp := n }

/-- `Stack[k] <- t` (10_state.md R39). -/
def State.setSlot (s : State) (k : Fin 16) (t : Word) : State := { s with stack := s.stack.set k.val t k.isLt }

/-- The random bytes still supplied and the number of free draws made (the model's own fields, assumption 3). -/
def State.setRandom (s : State) (bytes : List Byte) (n : Nat) : State := { s with randomIn := bytes, draws := n }

/-! ### How a step ends (00_scope.md R12) -/

/-- The step ran to its end: `Completed`. -/
def complete (s : State) : Result := .next s

/-- `retry`: the step leaves every piece of state as it was (43_io_timers.md R245). `s` is the state before the step. -/
def retry (s : State) : Result := .next s

/-- `raise E(info)`, the one way a fatal condition is taken: every write of the step is discarded, the advance of `pc`
included, and `Status <- Faulted(E(info))` (40_control_flow.md R151, 60_exceptions.md R261). `s` is the state before the
step. -/
def raise (e : Fault) (s : State) : Result := .next (s.setStatus (.faulted e))

/-- Go on with a checked value, or raise the condition the check met. `s` is the state before the step. -/
def attempt {α : Type} (s : State) (r : Except Fault α) (k : α → Result) : Result :=
  match r with
  | .error e => raise e s
  | .ok a => k a

/-! ### Program counter and flag -/

/-- `pc <- pc + 2`, before the operation's own effects (40_control_flow.md R150). -/
def State.advance (s : State) : State := s.setPc (s.pc + 2)

/-- A skip: 2 more on the advanced `pc` when the condition holds (40_control_flow.md R162). -/
def State.advanceSkipping (s : State) (c : Bool) : State := if c then s.advance.setPc (s.advance.pc + 2) else s.advance

/-- The index of the flag register `VF` (10_state.md R33). -/
def flagReg : Nibble := 0xF

/-- `VF <- f ? 1 : 0`, after the result (41_alu.md R193). -/
def State.setFlag (s : State) (f : Bool) : State := s.setReg flagReg (flagByte f)

/-! ### Memory access (20_memory.md R83 to R85) -/

/-- The bound check of every access (20_memory.md R74). -/
def checkRead (a : Nat) : Except Fault Unit :=
  if Config.memSize ≤ a then .error (.addressOutOfRange a) else .ok ()

/-- The checks of a write: the bound, then the read-only font region (20_memory.md R85). -/
def checkWrite (a : Nat) : Except Fault Unit :=
  if Config.memSize ≤ a then .error (.addressOutOfRange a)
  else if a < Config.fontSize then .error (.readOnlyWrite a)
  else .ok ()

/-- Check `n` addresses from `a` in ascending order; the first that fails is reported (60_exceptions.md R273). -/
def checkEach (f : Nat → Except Fault Unit) (a : Nat) : Nat → Except Fault Unit
  | 0 => .ok ()
  | n + 1 =>
    match f a with
    | .error e => .error e
    | .ok () => checkEach f (a + 1) n

/-- `MemRead(addr, 1)` (20_memory.md R83). -/
def memRead (m : Memory) (a : Nat) : Except Fault Byte :=
  match checkRead a with
  | .error e => .error e
  | .ok () => .ok (m.byteAt a)

/-- `MemRead(addr, 2)`, big-endian, for instruction fetch (20_memory.md R84). -/
def memReadHalfword (m : Memory) (a : Nat) : Except Fault Word :=
  match memRead m a with
  | .error e => .error e
  | .ok hi =>
    match memRead m (a + 1) with
    | .error e => .error e
    | .ok lo => .ok (wordOfBytes hi lo)

/-- Store bytes at ascending addresses, every address checked before the first write (20_memory.md R85, 00_scope.md
R13). -/
def memWriteBytes (m : Memory) (a : Nat) (bytes : List Byte) : Except Fault Memory :=
  match checkEach checkWrite a bytes.length with
  | .error e => .error e
  | .ok () => .ok (m.writeBytes a bytes)

/-- Read `n` bytes at ascending addresses, every address checked before the first read (20_memory.md R83). -/
def memReadBytes (m : Memory) (a n : Nat) : Except Fault (List Byte) :=
  match checkEach checkRead a n with
  | .error e => .error e
  | .ok () => .ok (m.bytesFrom a n)

/-- `V[k] <- bytes[0]; V[k+1] <- bytes[1]; ...` in ascending order; only the 16 registers exist (42_index_memory.md
R225). -/
def State.loadRegs (s : State) (k : Nat) : List Byte → State
  | [] => s
  | b :: rest => State.loadRegs (if k < 16 then s.setReg (BitVec.ofNat 4 k) b else s) (k + 1) rest

/-! ### The call stack (10_state.md R39) -/

/-- Push a return address, or report the overflow (40_control_flow.md R156). -/
def push (s : State) (t : Word) : Except Fault State :=
  if h : s.sp.val < 16 then .ok ((s.setSlot ⟨s.sp.val, h⟩ t).setSp ⟨s.sp.val + 1, by omega⟩)
  else .error .stackOverflow

/-- Pop a return address, or report the underflow; the slot keeps its value (40_control_flow.md R154). -/
def pop (s : State) : Except Fault (Word × State) :=
  if h : s.sp.val = 0 then .error .stackUnderflow
  else .ok (s.stack[s.sp.val - 1]'(by omega), s.setSp ⟨s.sp.val - 1, by omega⟩)

/-! ### The screen (20_memory.md R87 to R91) -/

/-- A column number, wrapped to the screen (20_memory.md R90). -/
def wrapX (n : Nat) : Fin 64 := ⟨n % 64, by omega⟩

/-- A row number, wrapped to the screen (20_memory.md R90). -/
def wrapY (n : Nat) : Fin 32 := ⟨n % 32, by omega⟩

/-- `Fb[x, y]` (20_memory.md R87). -/
def Screen.cell (f : Screen) (x : Fin 64) (y : Fin 32) : Bool := (f[y.val]'y.isLt)[x.val]'x.isLt

/-- `Fb[x, y] <- b`. -/
def Screen.setCell (f : Screen) (x : Fin 64) (y : Fin 32) (b : Bool) : Screen :=
  f.set y.val ((f[y.val]'y.isLt).set x.val b x.isLt) y.isLt

/-- `clear_screen()` (20_memory.md R88). -/
def clearCells : Screen := Screen.blank

/-- A sprite bit 1 inverts its cell; a set cell that it clears is a collision (20_memory.md R90). -/
def drawPixel (p : Screen × Bool) (x : Fin 64) (y : Fin 32) : Screen × Bool :=
  (p.1.setCell x y (!p.1.cell x y), p.2 || p.1.cell x y)

/-- One sprite row: bit `7 - col` falls on column `x + col`, wrapped (20_memory.md R90). -/
def drawRow (p : Screen × Bool) (b : Byte) (x y : Nat) : Screen × Bool :=
  (List.range 8).foldl (fun q col => if b.getLsbD (7 - col) then drawPixel q (wrapX (x + col)) (wrapY y) else q) p

/-- The sprite rows, top down from row `y` (20_memory.md R90). -/
def drawRows (p : Screen × Bool) (x y : Nat) : List Byte → Screen × Bool
  | [] => p
  | b :: rest => drawRows (drawRow p b x y) x (y + 1) rest

/-- `draw_sprite(addr, x, y, h)`: every sprite byte's address is checked before any cell changes; the second component is
the collision (20_memory.md R90, R91). -/
def drawSprite (m : Memory) (f : Screen) (a : Nat) (x y : Byte) (h : Nat) : Except Fault (Screen × Bool) :=
  match memReadBytes m a h with
  | .error e => .error e
  | .ok sprite => .ok (drawRows (f, false) x.toNat y.toNat sprite)

/-! ### The keypad (20_memory.md R96 to R99) -/

/-- `check_key(k)`: is the key held; nothing changes (20_memory.md R98). -/
def State.checkKey (s : State) (k : Key) : Bool := s.held[k.val]'k.isLt

/-- The key a register value names, or `InvalidKey` (43_io_timers.md R242, decision D20). -/
def keyOperand (b : Byte) : Except Fault Key :=
  match asHexDigit b with
  | some k => .ok k
  | none => .error (.invalidKey b)

/-- The digit a register value names, or `InvalidFontDigit` (42_index_memory.md R222, decision D19). -/
def digitOperand (b : Byte) : Except Fault Byte :=
  match asHexDigit b with
  | some _ => .ok b
  | none => .error (.invalidFontDigit b)

/-- `take_pending_key()`: the latch, and the state with it cleared (20_memory.md R99). -/
def State.takePendingKey (s : State) : Option Key × State := (s.latch, s.setLatch none)

/-- `set_key(k)`: the key is held and is the last pressed (20_memory.md R96). -/
def State.pressKey (s : State) (k : Key) : State := (s.setHeld (s.held.set k.val true k.isLt)).setLatch (some k)

/-- `reset_keys()`: no key is held; the latch stays (20_memory.md R97). -/
def State.releaseKeys (s : State) : State := s.setHeld (Vector.replicate 16 false)

/-! ### The timers (43_io_timers.md R249 to R251) -/

/-- A timer after `n` ticks: `max(0, t - min(n, 255))` (43_io_timers.md R249). -/
def decayTimer (t : Byte) (n : Nat) : Byte := BitVec.ofNat 8 (t.toNat - min n Config.tickClamp)

/-- `tick_timers(n)` (43_io_timers.md R249). -/
def State.tickTimers (s : State) (n : Nat) : State :=
  (s.setDelayTimer (decayTimer s.dt n)).setSoundTimer (decayTimer s.st n)

/-- The `sound_active` output (43_io_timers.md R251). -/
def State.soundActive (s : State) : Bool := s.st != 0

/-! ### The random byte (41_alu.md R191) -/

/-- The byte `r` of this execution: the one the host supplied, or else a free value (assumption 3). -/
def State.randomByte (s : State) : Byte :=
  match s.randomIn with
  | r :: _ => r
  | [] => Config.randomByte s.draws

/-- The byte is used once: the next `Cxkk` has another (00_scope.md R6). -/
def State.consumeRandom (s : State) : State :=
  match s.randomIn with
  | _ :: rest => s.setRandom rest s.draws
  | [] => s.setRandom [] (s.draws + 1)

/-! ### Fetch, load and the fault output -/

/-- The instruction word at `pc` (40_control_flow.md R150). -/
def fetch (s : State) : Except Fault Word := memReadHalfword s.mem s.pc.toNat

/-- `load_program(bytes)`: the bytes from 0x200, or `CapacityExceeded` and nothing written (20_memory.md R92, R93). -/
def loadBytes (s : State) (bytes : List Byte) : Except Fault State :=
  if Config.progMax < bytes.length then .error (.capacityExceeded bytes.length)
  else .ok (s.setMem (s.mem.writeBytes Config.progBase bytes))

/-- The `fault` output: the condition that stopped the core (60_exceptions.md R262). -/
def State.faultOutput (s : State) : Option Fault :=
  match s.status with
  | .running => none
  | .faulted e => some e

/-- The code number of a condition (60_exceptions.md R263). -/
def Fault.code : Fault → Nat
  | .unrecognizedOpcode _ => 1
  | .unsupportedSystemCall _ => 2
  | .stackOverflow => 3
  | .stackUnderflow => 4
  | .addressOutOfRange _ => 5
  | .readOnlyWrite _ => 6
  | .invalidKey _ => 7
  | .invalidFontDigit _ => 8
  | .capacityExceeded _ => 9

end Sys2Proof.Machine
end

