-- ==== Sys2Proof/Machine/Alu.lean ====
section
/-! DEFINITION. Register loads, the ALU and the random instruction (41_alu.md R180 to R193). Operands are read from the state
before the step; the result is written first and the flag second (R193). -/

namespace Sys2Proof.Machine

/-- `6xkk` LoadByte (41_alu.md R180). -/
def execLoadByte (x : Nibble) (kk : Byte) (s : State) : Result := complete (s.advance.setReg x kk)

/-- `7xkk` AddByte: wraps, no flag (41_alu.md R181). -/
def execAddByte (x : Nibble) (kk : Byte) (s : State) : Result := complete (s.advance.setReg x (s.reg x + kk))

/-- `8xy0` LoadReg (41_alu.md R182). -/
def execLoadReg (x y : Nibble) (s : State) : Result := complete (s.advance.setReg x (s.reg y))

/-- `8xy1` Or (41_alu.md R183). -/
def execOr (x y : Nibble) (s : State) : Result := complete (s.advance.setReg x (s.reg x ||| s.reg y))

/-- `8xy2` And (41_alu.md R184). -/
def execAnd (x y : Nibble) (s : State) : Result := complete (s.advance.setReg x (s.reg x &&& s.reg y))

/-- `8xy3` Xor (41_alu.md R185). -/
def execXor (x y : Nibble) (s : State) : Result := complete (s.advance.setReg x (s.reg x ^^^ s.reg y))

/-- `8xy4` MathAdd: `VF` is the carry (41_alu.md R186). -/
def execMathAdd (x y : Nibble) (s : State) : Result :=
  complete ((s.advance.setReg x (s.reg x + s.reg y)).setFlag (carryOut (s.reg x) (s.reg y)))

/-- `8xy5` MathSub, `Vx - Vy`: `VF` is 1 when there is no borrow (41_alu.md R187). -/
def execMathSub (x y : Nibble) (s : State) : Result :=
  complete ((s.advance.setReg x (s.reg x - s.reg y)).setFlag (noBorrow (s.reg x) (s.reg y)))

/-- `8xy6` ShiftRight: `Vx` in place, `y` ignored, `VF` the bit shifted out (41_alu.md R188, 30_encoding.md R126). -/
def execShiftRight (x _y : Nibble) (s : State) : Result :=
  complete ((s.advance.setReg x (s.reg x >>> 1)).setFlag (lowBit (s.reg x)))

/-- `8xy7` MathSubN, `Vy - Vx`: `VF` is 1 when there is no borrow (41_alu.md R189). -/
def execMathSubN (x y : Nibble) (s : State) : Result :=
  complete ((s.advance.setReg x (s.reg y - s.reg x)).setFlag (noBorrow (s.reg y) (s.reg x)))

/-- `8xyE` ShiftLeft: `Vx` in place, `y` ignored, `VF` the bit shifted out (41_alu.md R190, 30_encoding.md R126). -/
def execShiftLeft (x _y : Nibble) (s : State) : Result :=
  complete ((s.advance.setReg x (s.reg x <<< 1)).setFlag (highBit (s.reg x)))

/-- `Cxkk` Rand: the step's random byte and the mask (41_alu.md R191). -/
def execRand (x : Nibble) (kk : Byte) (s : State) : Result :=
  complete (s.advance.consumeRandom.setReg x (s.randomByte &&& kk))

end Sys2Proof.Machine
end

