-- ==== Sys2Proof/Machine/Control.lean ====
section
/-! DEFINITION. The control-transfer instructions (40_control_flow.md R153 to R161). Each meaning is given the state before
the step, with `pc` at the instruction, and advances `pc` itself (R150). -/

namespace Sys2Proof.Machine

/-- `0nnn` SysAddr: always fatal (40_control_flow.md R153). -/
def execSysAddr (nnn : Addr12) (s : State) : Result := raise (.unsupportedSystemCall nnn) s

/-- `00EE` Return (40_control_flow.md R154). -/
def execReturn (s : State) : Result :=
  attempt s (pop s.advance) fun (t, s') => complete (s'.setPc t)

/-- `1nnn` Jump (40_control_flow.md R155). -/
def execJump (nnn : Addr12) (s : State) : Result := complete (s.advance.setPc (zextAddr nnn))

/-- `2nnn` Call: the address pushed is that of the next instruction (40_control_flow.md R156). -/
def execCall (nnn : Addr12) (s : State) : Result :=
  attempt s (push s.advance s.advance.pc) fun s' => complete (s'.setPc (zextAddr nnn))

/-- `3xkk` SkipEqByte (40_control_flow.md R157). -/
def execSkipEqByte (x : Nibble) (kk : Byte) (s : State) : Result := complete (s.advanceSkipping (s.reg x == kk))

/-- `4xkk` SkipNeByte (40_control_flow.md R158). -/
def execSkipNeByte (x : Nibble) (kk : Byte) (s : State) : Result := complete (s.advanceSkipping (s.reg x != kk))

/-- `5xy0` SkipEqReg (40_control_flow.md R159). -/
def execSkipEqReg (x y : Nibble) (s : State) : Result := complete (s.advanceSkipping (s.reg x == s.reg y))

/-- `9xy0` SkipNeReg (40_control_flow.md R160). -/
def execSkipNeReg (x y : Nibble) (s : State) : Result := complete (s.advanceSkipping (s.reg x != s.reg y))

/-- `Bnnn` JumpV0: the base is always `V0`, and the sum is not reduced to 12 bits (40_control_flow.md R161). -/
def execJumpV0 (nnn : Addr12) (s : State) : Result :=
  complete (s.advance.setPc (zextAddr nnn + zextByte (s.reg 0)))

end Sys2Proof.Machine
end

