-- ==== Sys2Proof/Machine/Devices.lean ====
section
/-! DEFINITION. The instructions of the display, the keypad and the timers (43_io_timers.md R240 to R248). -/

namespace Sys2Proof.Machine

/-- `00E0` ClearScreen (43_io_timers.md R240). -/
def execClearScreen (s : State) : Result := complete (s.advance.setScreen clearCells)

/-- `Dxyn` Draw: `VF` is the collision, written after the coordinates are read (43_io_timers.md R241). -/
def execDraw (x y n : Nibble) (s : State) : Result :=
  attempt s (drawSprite s.mem s.fb (s.byteAddr 0) (s.reg x) (s.reg y) n.toNat)
    fun (f, c) => complete ((s.advance.setScreen f).setFlag c)

/-- `Ex9E` SkipKeyPressed (43_io_timers.md R242). -/
def execSkipKeyPressed (x : Nibble) (s : State) : Result :=
  attempt s (keyOperand (s.reg x)) fun k => complete (s.advanceSkipping (s.checkKey k))

/-- `ExA1` SkipKeyNotPressed (43_io_timers.md R243). -/
def execSkipKeyNotPressed (x : Nibble) (s : State) : Result :=
  attempt s (keyOperand (s.reg x)) fun k => complete (s.advanceSkipping (!s.checkKey k))

/-- `Fx0A` KeyGet: consume the latch, or retry with nothing changed (43_io_timers.md R244, R245). -/
def execKeyGet (x : Nibble) (s : State) : Result :=
  match s.advance.takePendingKey with
  | (none, _) => retry s
  | (some k, s') => complete (s'.setReg x (keyByte k))

/-- `Fx07` LoadDelay (43_io_timers.md R246). -/
def execLoadDelay (x : Nibble) (s : State) : Result := complete (s.advance.setReg x s.dt)

/-- `Fx15` SetDelay (43_io_timers.md R247). -/
def execSetDelay (x : Nibble) (s : State) : Result := complete (s.advance.setDelayTimer (s.reg x))

/-- `Fx18` SetSound (43_io_timers.md R248). -/
def execSetSound (x : Nibble) (s : State) : Result := complete (s.advance.setSoundTimer (s.reg x))

end Sys2Proof.Machine
end

