-- ==== Sys2Proof/Machine/Transfer.lean ====
section
/-! DEFINITION. The index register and the transfers between registers and memory (42_index_memory.md R220 to R226). Every
check comes before any write, and no transfer changes `I` (R226). -/

namespace Sys2Proof.Machine

/-- `Annn` LoadIndex (42_index_memory.md R220). -/
def execLoadIndex (nnn : Addr12) (s : State) : Result := complete (s.advance.setIndex (zextAddr nnn))

/-- `Fx1E` AddIndex: wraps at 16 bits, never writes `VF` (42_index_memory.md R221). -/
def execAddIndex (x : Nibble) (s : State) : Result := complete (s.advance.setIndex (s.i + zextByte (s.reg x)))

/-- `Fx29` FontGlyph (42_index_memory.md R222). -/
def execFontGlyph (x : Nibble) (s : State) : Result :=
  attempt s (digitOperand (s.reg x)) fun d => complete (s.advance.setIndex (fontGlyphAddress d))

/-- `Fx33` BCD: hundreds, tens and ones at `I`, `I + 1`, `I + 2` (42_index_memory.md R223). -/
def execBcd (x : Nibble) (s : State) : Result :=
  attempt s (memWriteBytes s.mem (s.byteAddr 0) (bcdDigits (s.reg x))) fun m => complete (s.advance.setMem m)

/-- `Fx55` RegDump: `V0..Vx` at `I` upward (42_index_memory.md R224). -/
def execRegDump (x : Nibble) (s : State) : Result :=
  attempt s (memWriteBytes s.mem (s.byteAddr 0) (s.regsUpTo x)) fun m => complete (s.advance.setMem m)

/-- `Fx65` RegLoad: `V0..Vx` from `I` upward (42_index_memory.md R225). -/
def execRegLoad (x : Nibble) (s : State) : Result :=
  attempt s (memReadBytes s.mem (s.byteAddr 0) (regCount x)) fun bytes => complete (s.advance.loadRegs 0 bytes)

end Sys2Proof.Machine
end

