-- ==== Sys2Proof/Machine/Step.lean ====
section
/-! DEFINITION. One step of the machine (40_control_flow.md R150, R151; the order of conditions is 60_exceptions.md R273),
and the state in which the next step runs a given word. -/

namespace Sys2Proof.Machine

/-- `step`: a faulted core reports its condition again and does nothing (10_state.md R47); otherwise fetch, decode and
execute one instruction, and take the first condition met (60_exceptions.md R273). A step that raises answers the state
with `Status = Faulted(e)` (assumption 2). -/
def step (s : State) : Host.Outcome State Fault Refusal :=
  match s.status with
  | .faulted e => .fault e
  | .running =>
    attempt s (fetch s) fun w =>
      match decode w with
      | .error _ => raise (.unrecognizedOpcode w) s
      | .ok i => exec i s

/-- The address an instruction is stored at so that the next step fetches it: `pc`, or 0x200 when no word lies at `pc`
(20_memory.md R84). -/
def State.fetchAddress (s : State) : Nat := if s.pc.toNat + 1 < Config.memSize then s.pc.toNat else Config.progBase

/-- `s` with a word of spec/opcode_table.json stored, big-endian, where the next step fetches (20_memory.md R75). It stands
for the host's load (assumption 13). A core that is running with a whole word at `pc` keeps its `pc` and status; any other
is set running at 0x200, since it fetches nothing as it stands. -/
def State.withFetchWord (s : State) (nbits w : Nat) : State :=
  let a := s.fetchAddress
  let word := tableWord nbits w
  ((s.setMem (s.mem.writeBytes a [highByte word, lowByte word])).setPc (BitVec.ofNat 16 a)).setStatus .running

end Sys2Proof.Machine
end

