-- ==== Sys2Proof/Machine/Disassembly.lean ====
section
/-! DEFINITION. The disassembler (30_encoding.md R131, R132): the text of an instruction, the line of a word, and the lines of
a byte range, which it reads two bytes at a time and never executes. -/

namespace Sys2Proof

/-- The mnemonic the disassembler prints: the variant's name (30_encoding.md R125, R131). -/
def Instr.mnemonic : Instr → String
  | .clearScreen => "ClearScreen"
  | .ret => "Return"
  | .sysAddr _ => "SysAddr"
  | .jump _ => "Jump"
  | .call _ => "Call"
  | .skipEqByte _ _ => "SkipEqByte"
  | .skipNeByte _ _ => "SkipNeByte"
  | .skipEqReg _ _ => "SkipEqReg"
  | .loadByte _ _ => "LoadByte"
  | .addByte _ _ => "AddByte"
  | .loadReg _ _ => "LoadReg"
  | .orReg _ _ => "Or"
  | .andReg _ _ => "And"
  | .xorReg _ _ => "Xor"
  | .mathAdd _ _ => "MathAdd"
  | .mathSub _ _ => "MathSub"
  | .shiftRight _ _ => "ShiftRight"
  | .mathSubN _ _ => "MathSubN"
  | .shiftLeft _ _ => "ShiftLeft"
  | .skipNeReg _ _ => "SkipNeReg"
  | .loadIndex _ => "LoadIndex"
  | .jumpV0 _ => "JumpV0"
  | .rand _ _ => "Rand"
  | .draw _ _ _ => "Draw"
  | .skipKeyPressed _ => "SkipKeyPressed"
  | .skipKeyNotPressed _ => "SkipKeyNotPressed"
  | .loadDelay _ => "LoadDelay"
  | .keyGet _ => "KeyGet"
  | .setDelay _ => "SetDelay"
  | .setSound _ => "SetSound"
  | .addIndex _ => "AddIndex"
  | .fontGlyph _ => "FontGlyph"
  | .bcd _ => "BCD"
  | .regDump _ => "RegDump"
  | .regLoad _ => "RegLoad"

/-- One hexadecimal digit, capital letters (30_encoding.md R131; the document's example is `V(0xA)`). -/
def hexDigit (n : Nat) : String :=
  String.singleton (['0', '1', '2', '3', '4', '5', '6', '7', '8', '9', 'A', 'B', 'C', 'D', 'E', 'F'].getD (n % 16) '0')

/-- A register as `V(0x<hex digit>)` (30_encoding.md R131). -/
def regText (x : Nibble) : String := "V(0x" ++ hexDigit x.toNat ++ ")"

/-- A row count as `0x` and one digit (30_encoding.md R131). -/
def countText (n : Nibble) : String := "0x" ++ hexDigit n.toNat

/-- A byte immediate as `0x` and two digits (30_encoding.md R131). -/
def byteText (kk : Byte) : String := "0x" ++ hexDigit (kk.toNat / 16) ++ hexDigit kk.toNat

/-- An address as `0x` and three digits (30_encoding.md R131). -/
def addrText (nnn : Addr12) : String :=
  "0x" ++ hexDigit (nnn.toNat / 256) ++ hexDigit (nnn.toNat / 16) ++ hexDigit nnn.toNat

/-- The operands in field order (30_encoding.md R131). -/
def Instr.operandTexts : Instr → List String
  | .clearScreen | .ret => []
  | .sysAddr nnn | .jump nnn | .call nnn | .loadIndex nnn | .jumpV0 nnn => [addrText nnn]
  | .skipEqByte x kk | .skipNeByte x kk | .loadByte x kk | .addByte x kk | .rand x kk => [regText x, byteText kk]
  | .skipEqReg x y | .skipNeReg x y | .loadReg x y | .orReg x y | .andReg x y | .xorReg x y => [regText x, regText y]
  | .mathAdd x y | .mathSub x y | .mathSubN x y | .shiftRight x y | .shiftLeft x y => [regText x, regText y]
  | .draw x y n => [regText x, regText y, countText n]
  | .skipKeyPressed x | .skipKeyNotPressed x | .loadDelay x | .keyGet x | .setDelay x | .setSound x => [regText x]
  | .addIndex x | .fontGlyph x | .bcd x | .regDump x | .regLoad x => [regText x]

/-- Operands separated by a comma and a space (30_encoding.md R131). -/
def joinOperands : List String → String
  | [] => ""
  | [t] => t
  | t :: rest => t ++ ", " ++ joinOperands rest

/-- The disassembled instruction: the mnemonic, then a space and the operands when it has any (30_encoding.md R131). -/
def disassemble (i : Instr) : String :=
  match i.operandTexts with
  | [] => i.mnemonic
  | ts => i.mnemonic ++ " " ++ joinOperands ts

/-- The mnemonic prefix of a disassembled instruction: the characters before the first space (30_encoding.md R131). -/
def mnemonicPrefix (text : String) : String := String.ofList (text.toList.takeWhile (· != ' '))

/-- Rows 1 to 18 of 30_encoding.md R125, by name. -/
def variantNamesLow : List String :=
  ["ClearScreen", "Return", "SysAddr", "Jump", "Call", "SkipEqByte", "SkipNeByte", "SkipEqReg", "LoadByte", "AddByte",
   "LoadReg", "Or", "And", "Xor", "MathAdd", "MathSub", "ShiftRight", "MathSubN"]

/-- Rows 19 to 35 of 30_encoding.md R125, by name. -/
def variantNamesHigh : List String :=
  ["ShiftLeft", "SkipNeReg", "LoadIndex", "JumpV0", "Rand", "Draw", "SkipKeyPressed", "SkipKeyNotPressed", "LoadDelay",
   "KeyGet", "SetDelay", "SetSound", "AddIndex", "FontGlyph", "BCD", "RegDump", "RegLoad"]

/-- The row number a mnemonic names (30_encoding.md R125, R131). -/
def rowOfMnemonic (name : String) : Option Nat :=
  ((variantNamesLow ++ variantNamesHigh).findIdx? (· == name)).map (· + 1)

/-- One line of the disassembly. The formats the spec leaves open are free values (30_encoding.md R132, assumption 12). -/
def disassembleWord (address : Nat) (w : Word) : String :=
  match decode w with
  | .ok i => Config.formatAddress address ++ " (" ++ Config.formatRawWord w ++ "): " ++ disassemble i
  | .error _ => Config.formatAddress address ++ ": UNRECOGNIZED " ++ Config.unrecognizedReason w

/-- The lines of a byte range from an address, two bytes at a time; a last odd byte is no word and has no line
(30_encoding.md R132, assumption 12). -/
def disassembleBytes (address : Nat) : List Byte → List String
  | hi :: lo :: rest => disassembleWord address (wordOfBytes hi lo) :: disassembleBytes (address + 2) rest
  | _ => []

end Sys2Proof
end

