-- ==== Sys2Proof/Machine/Port.lean ====
section
/-! DEFINITION. The host port: every interaction with the block as one atomic transaction (00_scope.md R7 to R9,
60_exceptions.md R282), in any order the spec admits. `step` alone is the core between two host transactions; claims about
runs with a host are claims about `transact`. -/

namespace Sys2Proof.Machine

/-- The outcome a `step` returns to the host (00_scope.md R12). -/
inductive StepOutcome where
  | completed
  | retry
  | fault (e : Fault)
  deriving DecidableEq, Repr

/-- The ports of 00_scope.md R9 and the reset of 70_reset_and_hazards.md R290. -/
inductive Transaction where
  /-- Reset: any time (60_exceptions.md R282). -/
  | reset
  /-- `load_program(bytes)` (20_memory.md R92). -/
  | loadProgram (bytes : List Byte)
  /-- `set_key(k)`; the host owes a key 0x0 to 0xF (20_memory.md R95, R96). -/
  | setKey (k : Nat)
  /-- `reset_keys()` (20_memory.md R97). -/
  | resetKeys
  /-- `tick_timers(n)` (43_io_timers.md R249). -/
  | tickTimers (n : Nat)
  /-- `step(r)` with its random byte (40_control_flow.md R150). -/
  | step (r : Byte)
  /-- Read the framebuffer, row-major (20_memory.md R89). -/
  | readFramebuffer
  /-- Read `sound_active` (43_io_timers.md R251). -/
  | readSoundActive
  /-- Read the `fault` output (60_exceptions.md R262). -/
  | readFault
  deriving DecidableEq, Repr

/-- What a transaction returns to the host. -/
inductive Reply where
  | done
  /-- `load_program` wrote this many bytes (20_memory.md R92). -/
  | loaded (length : Nat)
  /-- `load_program` raised `CapacityExceeded` (20_memory.md R93). -/
  | loadFault (e : Fault)
  | stepped (o : StepOutcome)
  | framebuffer (rows : List (List Bool))
  | soundActive (on : Bool)
  | fault (e : Option Fault)
  deriving DecidableEq, Repr

/-- How far the host is in the boot sequence (20_memory.md R94, 70_reset_and_hazards.md R293): what decides whether a load
or a step is admitted. It is the host protocol's state, not the block's. -/
inductive Phase where
  /-- After reset, nothing loaded, no step issued. -/
  | fresh
  /-- Loaded, no step issued. -/
  | loaded
  /-- A load raised `CapacityExceeded` (60_exceptions.md R272). -/
  | loadFailed
  /-- A step has been issued. -/
  | stepped
  deriving DecidableEq, Repr

/-- The block and the boot protocol it is used under. -/
structure Session where
  block : State
  phase : Phase
  deriving DecidableEq, Repr

/-- A session that begins with a reset (70_reset_and_hazards.md R293). -/
def Session.start : Session := ⟨State.reset, .fresh⟩

/-- Does the next step find `Fx0A` with nothing pending, so that it ends in `Retry` (43_io_timers.md R244)? -/
def State.waitsForKey (s : State) : Bool :=
  match s.status, fetch s with
  | .running, .ok w =>
    match decode w with
    | .ok (.keyGet _) => s.latch.isNone
    | _ => false
  | _, _ => false

/-- The tag of a step from `s` that answered `t`: a condition taken, a retry, or a step run to its end (00_scope.md R12). -/
def outcomeTag (s t : State) : StepOutcome :=
  match t.status with
  | .faulted e => .fault e
  | .running => if s.waitsForKey then .retry else .completed

/-- `step(r)` as the host sees it (40_control_flow.md R150, R151): the outcome and the state after. `r` serves this step
only (00_scope.md R9); a faulted core stays as it is (10_state.md R47). -/
def State.stepPort (s : State) (r : Byte) : Except Refusal (StepOutcome × State) :=
  match step (s.setRandom [r] s.draws) with
  | .next t => .ok (outcomeTag s t, t.setRandom s.randomIn s.draws)
  | .fault e => .ok (.fault e, s)
  | .refused why => .error why

/-- Reset as a host transaction: every piece of the spec's state at its reset value; the model's count of free random draws
runs on, so that two runs share no free byte (70_reset_and_hazards.md R290, assumption 3). -/
def State.resetPort (s : State) : State := State.reset.setRandom [] s.draws

/-- The framebuffer as the host reads it: 32 rows of 64 cells (20_memory.md R87, R89). -/
def State.framebuffer (s : State) : List (List Bool) := s.fb.toList.map Vector.toList

/-- `load_program(bytes)` in a session; `CapacityExceeded` leaves memory as it was and the core faulted
(20_memory.md R93, 60_exceptions.md R272, assumption 8). -/
def Session.load (c : Session) (bytes : List Byte) : Reply × Session :=
  match loadBytes c.block bytes with
  | .ok s => (.loaded bytes.length, ⟨s, .loaded⟩)
  | .error e => (.loadFault e, ⟨c.block.setStatus (.faulted e), .loadFailed⟩)

/-- One transaction: a reply and the session after, or a refusal of what the host may not issue (60_exceptions.md R282,
20_memory.md R94, R95). -/
def transact (c : Session) : Transaction → Except Refusal (Reply × Session)
  | .reset => .ok (.done, ⟨c.block.resetPort, .fresh⟩)
  | .loadProgram bytes =>
    match c.phase with
    | .fresh => .ok (c.load bytes)
    | .loaded | .loadFailed | .stepped => .error .loadNotAllowed
  | .setKey k =>
    if h : k < 16 then .ok (.done, ⟨c.block.pressKey ⟨k, h⟩, c.phase⟩) else .error (.keyOutOfRange k)
  | .resetKeys => .ok (.done, ⟨c.block.releaseKeys, c.phase⟩)
  | .tickTimers n => .ok (.done, ⟨c.block.tickTimers n, c.phase⟩)
  | .step r =>
    match c.phase with
    | .loadFailed => .error .stepAfterFailedLoad
    | .fresh | .loaded | .stepped =>
      match c.block.stepPort r with
      | .ok (o, s) => .ok (.stepped o, ⟨s, .stepped⟩)
      | .error why => .error why
  | .readFramebuffer => .ok (.framebuffer c.block.framebuffer, c)
  | .readSoundActive => .ok (.soundActive c.block.soundActive, c)
  | .readFault => .ok (.fault c.block.faultOutput, c)

/-- A sequence of transactions, each admitted, and the session after them (20_memory.md R100). -/
def transactAll (c : Session) : List Transaction → Except Refusal Session
  | [] => .ok c
  | t :: rest =>
    match transact c t with
    | .ok (_, c') => transactAll c' rest
    | .error why => .error why

end Sys2Proof.Machine
end

