-- ==== Sys2Proof/Safety.lean ====
section
/-! DEFINITION. The terms claims are stated in: what an instruction leaves unchanged (its frame), what it means that it
completes or takes a fatal condition, which cells a sprite covers, the invariants of the machine, and the sessions a host
can bring about. -/

namespace Sys2Proof.Machine

/-- The parts of the state a frame speaks of: all of 10_state.md R30 but the program counter. -/
inductive Part where
  | regs
  | index
  | stack
  | delay
  | sound
  | memory
  | screen
  | held
  | latch
  | status
  | random
  deriving DecidableEq, Repr

/-- `t` has the part as `s` has it; memory is compared byte by byte. -/
def SamePart (s t : State) : Part → Prop
  | .regs => ∀ r, t.reg r = s.reg r
  | .index => t.i = s.i
  | .stack => t.sp = s.sp ∧ t.stack = s.stack
  | .delay => t.dt = s.dt
  | .sound => t.st = s.st
  | .memory => ∀ a, t.mem.byteAt a = s.mem.byteAt a
  | .screen => ∀ x y, t.fb.cell x y = s.fb.cell x y
  | .held => t.held = s.held
  | .latch => t.latch = s.latch
  | .status => t.status = s.status
  | .random => t.randomIn = s.randomIn ∧ t.draws = s.draws

/-- Everything but the listed parts (and `pc`) is unchanged. -/
def SameOutside (s t : State) (parts : List Part) : Prop := ∀ p, p ∉ parts → SamePart s t p

/-- Every general register but the listed ones is unchanged. -/
def SameRegsBut (s t : State) (written : List Nibble) : Prop := ∀ r, r ∉ written → t.reg r = s.reg r

/-- Every byte of memory outside the `n` bytes at `a` is unchanged. -/
def SameMemoryBut (s t : State) (a n : Nat) : Prop := ∀ b, b < a ∨ a + n ≤ b → t.mem.byteAt b = s.mem.byteAt b

/-- The instruction ends in a next state with the property. -/
def Completes (i : Instr) (s : State) (post : State → Prop) : Prop := ∃ t, exec i s = .next t ∧ post t

/-- The instruction takes a fatal condition: `Status` is `Faulted(e)` (40_control_flow.md R151). No more is said of the
state after a fault than its `Status`, as R151 asks of claims. -/
def Traps (i : Instr) (s : State) (e : Fault) : Prop := Completes i s fun t => t.status = .faulted e

/-- The first address of 4096 or more among those at `a, a+1, ...` (60_exceptions.md R273). -/
def firstOutside (a : Nat) : Nat := max a Config.memSize

/-- A sprite of `n` rows at `a`, drawn at `(x, y)`, has a 1 bit on the cell `(px, py)`, after wrapping
(20_memory.md R90). -/
def Covers (m : Memory) (a x y n : Nat) (px : Fin 64) (py : Fin 32) : Prop :=
  ∃ row col, row < n ∧ col < 8 ∧ (m.byteAt (a + row)).getLsbD (7 - col) = true ∧
    px.val = (x + col) % 64 ∧ py.val = (y + row) % 32

/-- The words no row matches: the five patterns of 30_encoding.md R127. -/
def UnrecognizedPattern (w : Word) : Prop :=
  (nibbleA w = 0x5 ∧ nibbleD w ≠ 0) ∨
  (nibbleA w = 0x8 ∧ (nibbleD w).toNat ∈ [0x8, 0x9, 0xA, 0xB, 0xC, 0xD, 0xF]) ∨
  (nibbleA w = 0x9 ∧ nibbleD w ≠ 0) ∨
  (nibbleA w = 0xE ∧ (fieldKK w).toNat ∉ [0x9E, 0xA1]) ∨
  (nibbleA w = 0xF ∧ (fieldKK w).toNat ∉ [0x07, 0x0A, 0x15, 0x18, 0x1E, 0x29, 0x33, 0x55, 0x65])

/-- Instructions that write `VF` as a flag (10_state.md R33). -/
def IsFlagWriter : Instr → Prop
  | .mathAdd _ _ | .mathSub _ _ | .mathSubN _ _ | .shiftRight _ _ | .shiftLeft _ _ | .draw _ _ _ => True
  | .clearScreen | .ret | .sysAddr _ | .jump _ | .call _ | .skipEqByte _ _ | .skipNeByte _ _ | .skipEqReg _ _ => False
  | .loadByte _ _ | .addByte _ _ | .loadReg _ _ | .orReg _ _ | .andReg _ _ | .xorReg _ _ | .skipNeReg _ _ => False
  | .loadIndex _ | .jumpV0 _ | .rand _ _ | .skipKeyPressed _ | .skipKeyNotPressed _ | .loadDelay _ | .keyGet _ => False
  | .setDelay _ | .setSound _ | .addIndex _ | .fontGlyph _ | .bcd _ | .regDump _ | .regLoad _ => False

/-- The general registers an instruction writes as its result (10_state.md R32). -/
def WritesAsResult (r : Nibble) : Instr → Prop
  | .loadByte x _ | .addByte x _ | .rand x _ => r = x
  | .loadReg x _ | .orReg x _ | .andReg x _ | .xorReg x _ | .mathAdd x _ | .mathSub x _ => r = x
  | .shiftRight x _ | .mathSubN x _ | .shiftLeft x _ | .loadDelay x | .keyGet x => r = x
  | .regLoad x => r ≤ x
  | .clearScreen | .ret | .sysAddr _ | .jump _ | .call _ | .skipEqByte _ _ | .skipNeByte _ _ | .skipEqReg _ _ => False
  | .skipNeReg _ _ | .loadIndex _ | .jumpV0 _ | .draw _ _ _ | .skipKeyPressed _ | .skipKeyNotPressed _ => False
  | .setDelay _ | .setSound _ | .addIndex _ | .fontGlyph _ | .bcd _ | .regDump _ => False

/-! ### Invariants -/

/-- The memory list is in its canonical form. -/
def State.MemoryCanonical (s : State) : Prop := s.mem.wf = true

/-- The font region holds `FONT_ROM` (20_memory.md R81). -/
def State.FontIntact (s : State) : Prop :=
  ∀ a, a < Config.fontSize → s.mem.byteAt a = Config.fontRom.getD a 0

/-- `pc` stays below the bound of 10_state.md R38, and so does every return address. -/
def State.PcBounded (s : State) : Prop :=
  s.pc.toNat ≤ 0x10FE ∧ ∀ k : Fin 16, (s.stack[k.val]'k.isLt).toNat ≤ 0x1000

/-- The invariants together. -/
def State.Inv (s : State) : Prop := s.MemoryCanonical ∧ s.FontIntact ∧ s.PcBounded

/-! ### Sessions -/

/-- The sessions a host can bring about by admitted transactions after a reset (60_exceptions.md R282). -/
inductive Session.Reachable : Session → Prop where
  | start : Session.Reachable Session.start
  | after {c c' : Session} {t : Transaction} {r : Reply} :
      Session.Reachable c → transact c t = .ok (r, c') → Session.Reachable c'

/-- A safe run: the core has met no fatal condition (10_state.md R47). -/
def Session.Safe (c : Session) : Prop := c.block.status = .running

/-- The transactions that move the phase of the boot protocol; the others leave it (20_memory.md R94, 60_exceptions.md
R272). -/
def MovesPhase : Transaction → Prop
  | .reset | .loadProgram _ | .step _ => True
  | .setKey _ | .resetKeys | .tickTimers _ | .readFramebuffer | .readSoundActive | .readFault => False

/-- The invariant of a session: the block's, a core that has not stepped and whose load did not fail runs, and after a
failed load the core is faulted with `CapacityExceeded` (60_exceptions.md R272; the last is assumption 8). -/
def Session.Inv (c : Session) : Prop :=
  c.block.Inv ∧ (c.phase = .fresh ∨ c.phase = .loaded → c.Safe) ∧
    (c.phase = .loadFailed → ∃ n, 3584 < n ∧ c.block.status = .faulted (.capacityExceeded n))

end Sys2Proof.Machine
end

