-- ==== Sys2Proof/Certificates/Slice0/Obligations.lean ====
section
/-! DEFINITION. The statements about the model for the provers, in the order of the spec's files. Each says in its docstring
which rule it formalises, and where a clause is the spec's own decision or the model's choice, which. Traps are stated
through `Status` alone, as 40_control_flow.md R151 asks of claims. -/

open Sys2Proof
open Sys2Proof.Machine

/-! ### Encoding -/

/-- Words written out from the layouts of 30_encoding.md R121 and the rows of R125 decode to the instructions they stand
for, and near misses are unrecognized. -/
def Obligations.WordsDecodeAsWritten : Prop :=
  decode 0x00E0 = .ok .clearScreen ∧ decode 0x00EE = .ok .ret ∧ decode 0x0234 = .ok (.sysAddr 0x234) ∧
  decode 0x2300 = .ok (.call 0x300) ∧ decode 0x3342 = .ok (.skipEqByte 0x3 0x42) ∧
  decode 0x6A05 = .ok (.loadByte 0xA 0x05) ∧ decode 0x8126 = .ok (.shiftRight 0x1 0x2) ∧
  decode 0x8127 = .ok (.mathSubN 0x1 0x2) ∧ decode 0xBFFF = .ok (.jumpV0 0xFFF) ∧
  decode 0xD125 = .ok (.draw 0x1 0x2 0x5) ∧ decode 0xE2A1 = .ok (.skipKeyNotPressed 0x2) ∧
  decode 0xF30A = .ok (.keyGet 0x3) ∧ decode 0xFF65 = .ok (.regLoad 0xF) ∧
  decode 0x5121 = .error (.unrecognizedOpcode 0x5121) ∧ decode 0x800F = .error (.unrecognizedOpcode 0x800F) ∧
  decode 0xF000 = .error (.unrecognizedOpcode 0xF000)

/-- Decoding the word of a well-formed instruction gives it back, every operand at every value (30_encoding.md R121 to
R125, at the default `ABSENT_ROWS`, assumption 4). -/
def Obligations.DecodeOfEncodeIsTheInstruction : Prop :=
  ∀ i : Instr, i.wf = true → decode (encode i) = .ok i

/-- Each recognized word has one meaning, and it is the word of its instruction: no bit is dropped, the ignored `y` of the
shifts included (30_encoding.md R124, R126). -/
def Obligations.EncodeOfDecodeIsTheWord : Prop :=
  ∀ (w : Word) (i : Instr), decode w = .ok i → encode i = w ∧ i.wf = true

/-- The decoder and the match and mask columns of 30_encoding.md R125 agree on every word: a word selects a row exactly
when it decodes to an instruction of that row. -/
def Obligations.DecodeSelectsTheTableRow : Prop :=
  ∀ (w : Word) (r : OpRow), r ∈ opcodeTable → (r.selects w = true ↔ ∃ i, decode w = .ok i ∧ i.row = r.number)

/-- Exactly the words of the five patterns of 30_encoding.md R127 are unrecognized, and the error carries the word; R127 is
marked as derived by the spec, and its counts are not restated. -/
def Obligations.UnrecognizedWordsAreTheFivePatterns : Prop :=
  ∀ w : Word, decode w = .error (.unrecognizedOpcode w) ↔ UnrecognizedPattern w

/-- The mnemonic prefix of a disassembled instruction names its row again (30_encoding.md R131, whose spelling is the
spec's decision D30). -/
def Obligations.MnemonicPrefixRecoversTheVariant : Prop :=
  ∀ i : Instr, rowOfMnemonic (mnemonicPrefix (disassemble i)) = some i.row

/-! ### The step -/

/-- When the bytes at `pc` decode to an instruction, a step of a running core is that instruction's meaning
(40_control_flow.md R150). Each meaning advances `pc` by 2 itself, so the step adds nothing around it. -/
def Obligations.StepRunsTheDecodedInstruction : Prop :=
  ∀ (s : State) (i : Instr), s.status = .running → s.pc.toNat + 1 < 4096 →
    decode (wordOfBytes (s.mem.byteAt s.pc.toNat) (s.mem.byteAt (s.pc.toNat + 1))) = .ok i →
    step s = exec i s

/-- `MemRead(addr, 2)`, whole (20_memory.md R84), and what a failed fetch does to a running core: the condition is taken
(60_exceptions.md R273; that `Status` holds it is decision D22). -/
def Obligations.HalfwordReadIsBigEndianAndBounded : Prop :=
  ∀ (s : State) (a : Nat),
    (4096 ≤ a → memReadHalfword s.mem a = .error (.addressOutOfRange a)) ∧
    (a = 4095 → memReadHalfword s.mem a = .error (.addressOutOfRange (a + 1))) ∧
    (a < 4095 → ∃ w, memReadHalfword s.mem a = .ok w ∧
      w.toNat = (s.mem.byteAt a).toNat * 256 + (s.mem.byteAt (a + 1)).toNat) ∧
    (s.status = .running → s.pc.toNat = a → 4095 ≤ a →
      ∃ t, step s = .next t ∧ t.status = .faulted (.addressOutOfRange (firstOutside a)))

/-- Executing an unrecognized word is fatal and reports the word (60_exceptions.md R264). -/
def Obligations.UnrecognizedWordIsFatal : Prop :=
  ∀ (s : State) (w : Word), s.status = .running → fetch s = .ok w → (∀ i, decode w ≠ .ok i) →
    ∃ t, step s = .next t ∧ t.status = .faulted (.unrecognizedOpcode w)

/-- A faulted core does nothing and returns its condition again, the `fault` output holds the condition, and no transaction
but reset makes it run; the output of a running core holds none (10_state.md R47 and 60_exceptions.md R262, decision D22).
-/
def Obligations.FaultedCoreStaysFaulted : Prop :=
  (∀ (s : State) (e : Fault), s.status = .faulted e →
    step s = .fault e ∧ ∀ r, s.stepPort r = .ok (.fault e, s)) ∧
  (∀ (c c' : Session) (t : Transaction) (r : Reply), c.block.status ≠ .running → t ≠ .reset →
    transact c t = .ok (r, c') → c'.block.status ≠ .running) ∧
  (∀ c : Session, ∃ c', transact c .reset = .ok (.done, c') ∧ c'.block.status = .running) ∧
  (∀ c : Session,
    (∀ e, c.block.status = .faulted e → transact c .readFault = .ok (.fault (some e), c)) ∧
    (c.block.status = .running → transact c .readFault = .ok (.fault none, c)))

/-- A step that raises leaves everything but `Status` as it was and returns the condition, and a step that retries leaves
everything as it was (40_control_flow.md R151, 43_io_timers.md R245; the discarding of writes is decision D22). -/
def Obligations.RaisedOrRetriedStepWritesNothing : Prop :=
  ∀ (s t : State) (r : Byte) (o : StepOutcome), s.status = .running → s.stepPort r = .ok (o, t) →
    (∀ e, o = .fault e → t = s.setStatus (.faulted e)) ∧
    (∀ e, t.status = .faulted e → o = .fault e) ∧
    (o = .retry → t = s)

/-- No step is refused, and a step answers a fault exactly when the core has already faulted: every instruction and every
fatal condition has its effect as a next state (the model's choice, assumption 2). -/
def Obligations.EveryRunningStepHasANextState : Prop :=
  ∀ s : State,
    (s.status = .running → ∃ t, step s = .next t) ∧
    (∀ why, step s ≠ .refused why) ∧
    (∀ e, step s = .fault e ↔ s.status = .faulted e)

/-- A word stored by `withFetchWord` is the instruction the next step runs, from every state whose memory is in canonical
form (the model's own loader, assumption 13). -/
def Obligations.StoredFetchWordIsRunNext : Prop :=
  ∀ (s : State) (i : Instr), s.MemoryCanonical → i.wf = true →
    step (s.withFetchWord 16 (encode i).toNat) = exec i (s.withFetchWord 16 (encode i).toNat)

/-- Code that stores its own next instruction runs what it stored: after `Fx55` at the address of the next instruction,
the fetch there reads the word of `V0` and `V1` (20_memory.md R103, derived by the spec). -/
def Obligations.StoredWordIsFetchedNext : Prop :=
  ∀ (s t : State) (x : Nibble), s.MemoryCanonical → s.status = .running → 1 ≤ x.toNat → s.i = s.pc + 2 →
    exec (.regDump x) s = .next t → t.status = .running →
    fetch t = .ok (wordOfBytes (s.reg 0) (s.reg 1))

/-! ### Control flow -/

/-- `1nnn` goes to the absolute address and changes nothing else (40_control_flow.md R155). -/
def Obligations.JumpGoesToItsAddress : Prop :=
  ∀ (s : State) (nnn : Addr12),
    Completes (.jump nnn) s fun t => t.pc.toNat = nnn.toNat ∧ SameOutside s t []

/-- `Bnnn` goes to `nnn + V0`, not wrapped, and changes nothing else (40_control_flow.md R161; that the base is `V0` is
decision D16). -/
def Obligations.JumpV0AddsTheBaseRegister : Prop :=
  ∀ (s : State) (nnn : Addr12),
    Completes (.jumpV0 nnn) s fun t => t.pc.toNat = nnn.toNat + (s.reg 0).toNat ∧ SameOutside s t []

/-- `2nnn` pushes the address of the next instruction and goes to `nnn`; with 16 addresses held it is fatal
(40_control_flow.md R156). -/
def Obligations.CallPushesTheNextAddress : Prop :=
  ∀ (s : State) (nnn : Addr12),
    (∀ h : s.sp.val < 16, Completes (.call nnn) s fun t =>
      t.pc.toNat = nnn.toNat ∧ t.sp.val = s.sp.val + 1 ∧ t.stack[s.sp.val]'h = s.pc + 2 ∧
      (∀ k : Fin 16, k.val ≠ s.sp.val → t.stack[k.val]'k.isLt = s.stack[k.val]'k.isLt) ∧
      SameOutside s t [.stack]) ∧
    (s.sp.val = 16 → Traps (.call nnn) s .stackOverflow)

/-- `00EE` resumes at the address pushed last and leaves the slot as it is; with the stack empty it is fatal
(40_control_flow.md R154). -/
def Obligations.ReturnPopsTheStack : Prop :=
  ∀ s : State,
    (∀ h : 0 < s.sp.val, Completes .ret s fun t =>
      t.pc = s.stack[s.sp.val - 1]'(by have := s.sp.isLt; omega) ∧ t.sp.val + 1 = s.sp.val ∧ t.stack = s.stack ∧
      SameOutside s t [.stack]) ∧
    (s.sp.val = 0 → Traps .ret s .stackUnderflow)

/-- `0nnn` is always fatal and reports its address (40_control_flow.md R153). -/
def Obligations.SystemCallIsFatal : Prop :=
  ∀ (s : State) (nnn : Addr12), Traps (.sysAddr nnn) s (.unsupportedSystemCall nnn)

/-- `3xkk` and `4xkk` skip one instruction exactly when `Vx` equals, or differs from, the byte, and change nothing else
(40_control_flow.md R157, R158). -/
def Obligations.ByteSkipsCompareWithTheImmediate : Prop :=
  ∀ (s : State) (x : Nibble) (kk : Byte),
    (Completes (.skipEqByte x kk) s fun t =>
      (s.reg x = kk → t.pc = s.pc + 4) ∧ (s.reg x ≠ kk → t.pc = s.pc + 2) ∧ SameOutside s t []) ∧
    (Completes (.skipNeByte x kk) s fun t =>
      (s.reg x ≠ kk → t.pc = s.pc + 4) ∧ (s.reg x = kk → t.pc = s.pc + 2) ∧ SameOutside s t [])

/-- `5xy0` and `9xy0` skip one instruction exactly when `Vx` and `Vy` are equal, or differ, and change nothing else
(40_control_flow.md R159, R160). -/
def Obligations.RegisterSkipsCompareTwoRegisters : Prop :=
  ∀ (s : State) (x y : Nibble),
    (Completes (.skipEqReg x y) s fun t =>
      (s.reg x = s.reg y → t.pc = s.pc + 4) ∧ (s.reg x ≠ s.reg y → t.pc = s.pc + 2) ∧ SameOutside s t []) ∧
    (Completes (.skipNeReg x y) s fun t =>
      (s.reg x ≠ s.reg y → t.pc = s.pc + 4) ∧ (s.reg x = s.reg y → t.pc = s.pc + 2) ∧ SameOutside s t [])

/-- A call and then a return resume after the call with the stack as deep as before (40_control_flow.md R154, R156). -/
def Obligations.CallThenReturnResumesAfterTheCall : Prop :=
  ∀ (s : State) (nnn : Addr12), s.sp.val < 16 →
    ∃ t u, exec (.call nnn) s = .next t ∧ exec .ret t = .next u ∧
      u.pc = s.pc + 2 ∧ u.sp = s.sp ∧ u.status = s.status ∧ SameOutside s u [.stack]

/-- A `1nnn` that jumps to itself is never left: any number of steps leaves the state as it is (40_control_flow.md R155,
70_reset_and_hazards.md R299). -/
def Obligations.JumpToItselfIsNeverLeft : Prop :=
  ∀ (s : State) (nnn : Addr12) (n : Nat), s.status = .running → fetch s = .ok (encode (.jump nnn)) →
    s.pc.toNat = nnn.toNat → Host.Core.run Sys2Proof.core n s = .next s

/-! ### ALU -/

/-- `6xkk` loads the byte, `7xkk` adds it modulo 256 without a flag, `8xy0` copies a register; nothing else changes but
`pc` (41_alu.md R180, R181, R182). -/
def Obligations.LoadsAndImmediateAdd : Prop :=
  ∀ (s : State) (x y : Nibble) (kk : Byte),
    (Completes (.loadByte x kk) s fun t =>
      t.reg x = kk ∧ SameRegsBut s t [x] ∧ t.pc = s.pc + 2 ∧ SameOutside s t [.regs]) ∧
    (Completes (.addByte x kk) s fun t =>
      (t.reg x).toNat = ((s.reg x).toNat + kk.toNat) % 256 ∧ SameRegsBut s t [x] ∧ t.pc = s.pc + 2 ∧
      SameOutside s t [.regs]) ∧
    (Completes (.loadReg x y) s fun t =>
      t.reg x = s.reg y ∧ SameRegsBut s t [x] ∧ t.pc = s.pc + 2 ∧ SameOutside s t [.regs])

/-- `8xy1`, `8xy2` and `8xy3` combine the registers bit by bit and write no flag (41_alu.md R183, R184, R185; that `VF`
stays is decision D14). -/
def Obligations.LogicIsBitwiseAndWritesNoFlag : Prop :=
  ∀ (s : State) (x y : Nibble),
    (Completes (.orReg x y) s fun t =>
      (∀ k, (t.reg x).getLsbD k = ((s.reg x).getLsbD k || (s.reg y).getLsbD k)) ∧
      SameRegsBut s t [x] ∧ t.pc = s.pc + 2 ∧ SameOutside s t [.regs]) ∧
    (Completes (.andReg x y) s fun t =>
      (∀ k, (t.reg x).getLsbD k = ((s.reg x).getLsbD k && (s.reg y).getLsbD k)) ∧
      SameRegsBut s t [x] ∧ t.pc = s.pc + 2 ∧ SameOutside s t [.regs]) ∧
    (Completes (.xorReg x y) s fun t =>
      (∀ k, (t.reg x).getLsbD k = ((s.reg x).getLsbD k ^^ (s.reg y).getLsbD k)) ∧
      SameRegsBut s t [x] ∧ t.pc = s.pc + 2 ∧ SameOutside s t [.regs])

/-- `8xy4` adds modulo 256 and leaves the carry in `VF`, which wins when `x` is `F` (41_alu.md R186; that order is also
decision D13). -/
def Obligations.AddLeavesTheCarry : Prop :=
  ∀ (s : State) (x y : Nibble),
    Completes (.mathAdd x y) s fun t =>
      (x ≠ 0xF → (t.reg x).toNat = ((s.reg x).toNat + (s.reg y).toNat) % 256) ∧
      (t.reg 0xF).toNat = (if 255 < (s.reg x).toNat + (s.reg y).toNat then 1 else 0) ∧
      SameRegsBut s t [x, 0xF] ∧ t.pc = s.pc + 2 ∧ SameOutside s t [.regs]

/-- `8xy5` is `Vx - Vy` and `8xy7` is `Vy - Vx`, modulo 256; `VF` is 1 exactly when there is no borrow, and wins when `x`
is `F` (41_alu.md R187, R189; the order of the writes is also decision D13, and that equal operands do not borrow D15). -/
def Obligations.SubtractLeavesTheNoBorrowFlag : Prop :=
  ∀ (s : State) (x y : Nibble),
    (Completes (.mathSub x y) s fun t =>
      (x ≠ 0xF → (t.reg x).toNat = ((s.reg x).toNat + 256 - (s.reg y).toNat) % 256) ∧
      (t.reg 0xF).toNat = (if (s.reg y).toNat ≤ (s.reg x).toNat then 1 else 0) ∧
      SameRegsBut s t [x, 0xF] ∧ t.pc = s.pc + 2 ∧ SameOutside s t [.regs]) ∧
    (Completes (.mathSubN x y) s fun t =>
      (x ≠ 0xF → (t.reg x).toNat = ((s.reg y).toNat + 256 - (s.reg x).toNat) % 256) ∧
      (t.reg 0xF).toNat = (if (s.reg x).toNat ≤ (s.reg y).toNat then 1 else 0) ∧
      SameRegsBut s t [x, 0xF] ∧ t.pc = s.pc + 2 ∧ SameOutside s t [.regs])

/-- `8xy6` and `8xyE` shift `Vx` in place by one, whatever `y` is, and leave the bit shifted out in `VF`, which wins when
`x` is `F` (41_alu.md R188, R190; the order of the writes is also decision D13). -/
def Obligations.ShiftsLeaveTheBitShiftedOut : Prop :=
  ∀ (s : State) (x y : Nibble),
    (Completes (.shiftRight x y) s fun t =>
      (x ≠ 0xF → (t.reg x).toNat = (s.reg x).toNat / 2) ∧ (t.reg 0xF).toNat = (s.reg x).toNat % 2 ∧
      SameRegsBut s t [x, 0xF] ∧ t.pc = s.pc + 2 ∧ SameOutside s t [.regs]) ∧
    (Completes (.shiftLeft x y) s fun t =>
      (x ≠ 0xF → (t.reg x).toNat = (s.reg x).toNat * 2 % 256) ∧ (t.reg 0xF).toNat = (s.reg x).toNat / 128 ∧
      SameRegsBut s t [x, 0xF] ∧ t.pc = s.pc + 2 ∧ SameOutside s t [.regs])

/-- `Cxkk` masks the execution's random byte, whatever that byte is, and writes no flag (41_alu.md R191, decision D28).
Where the byte comes from is the model's choice (assumption 3): the first supplied byte, which is used up, or a free value.
At the port the byte is the `r` of `step(r)` (00_scope.md R9), and every step through the port leaves the model's own two
fields as they were. -/
def Obligations.RandomByteIsMasked : Prop :=
  ∀ (s : State) (x : Nibble) (kk : Byte),
    (∀ r rest, s.randomIn = r :: rest → Completes (.rand x kk) s fun t =>
      (∀ k, (t.reg x).getLsbD k = (r.getLsbD k && kk.getLsbD k)) ∧ t.randomIn = rest ∧ t.draws = s.draws ∧
      SameRegsBut s t [x] ∧ t.pc = s.pc + 2 ∧ SameOutside s t [.regs, .random]) ∧
    (s.randomIn = [] → Completes (.rand x kk) s fun t =>
      (∀ k, (t.reg x).getLsbD k = ((Config.randomByte s.draws).getLsbD k && kk.getLsbD k)) ∧ t.randomIn = [] ∧
      t.draws = s.draws + 1 ∧ SameRegsBut s t [x] ∧ t.pc = s.pc + 2 ∧ SameOutside s t [.regs, .random]) ∧
    (s.status = .running → fetch s = .ok (encode (.rand x kk)) → ∀ r, ∃ t, s.stepPort r = .ok (.completed, t) ∧
      (∀ k, (t.reg x).getLsbD k = (r.getLsbD k && kk.getLsbD k)) ∧
      SameRegsBut s t [x] ∧ t.pc = s.pc + 2 ∧ SameOutside s t [.regs]) ∧
    (∀ r o t, s.stepPort r = .ok (o, t) → t.randomIn = s.randomIn ∧ t.draws = s.draws)

/-! ### Index register and transfers -/

/-- `Annn` sets `I`, and `Fx1E` adds `Vx` to it modulo 2^16 without a flag (42_index_memory.md R220, R221; the wrap and
the flag are decision D17). -/
def Obligations.IndexIsSetAndAddedTo : Prop :=
  ∀ (s : State) (x : Nibble) (nnn : Addr12),
    (Completes (.loadIndex nnn) s fun t => t.i.toNat = nnn.toNat ∧ t.pc = s.pc + 2 ∧ SameOutside s t [.index]) ∧
    (Completes (.addIndex x) s fun t =>
      t.i.toNat = (s.i.toNat + (s.reg x).toNat) % 65536 ∧ t.pc = s.pc + 2 ∧ SameOutside s t [.index])

/-- `Fx29` points `I` at the glyph of a digit 0 to F, and is fatal for any other value (42_index_memory.md R222; the
spacing is decision D8, the fault decision D19). -/
def Obligations.FontGlyphPointsAtTheDigit : Prop :=
  ∀ (s : State) (x : Nibble),
    ((s.reg x).toNat < 16 → Completes (.fontGlyph x) s fun t =>
      t.i.toNat = 5 * (s.reg x).toNat ∧ t.pc = s.pc + 2 ∧ SameOutside s t [.index]) ∧
    (16 ≤ (s.reg x).toNat → Traps (.fontGlyph x) s (.invalidFontDigit (s.reg x)))

/-- `Fx33` stores the hundreds, tens and ones of `Vx` at `I`, `I + 1`, `I + 2` and nothing else; an address in the font
region or past memory is fatal, the first in ascending order (42_index_memory.md R223; the two faults are also decisions D9
and D10). -/
def Obligations.BcdStoresTheDecimalDigits : Prop :=
  ∀ (s : State) (x : Nibble), s.MemoryCanonical →
    (80 ≤ s.byteAddr 0 → s.byteAddr 2 < 4096 → Completes (.bcd x) s fun t =>
      (t.mem.byteAt (s.byteAddr 0)).toNat = (s.reg x).toNat / 100 ∧
      (t.mem.byteAt (s.byteAddr 1)).toNat = (s.reg x).toNat / 10 % 10 ∧
      (t.mem.byteAt (s.byteAddr 2)).toNat = (s.reg x).toNat % 10 ∧
      SameMemoryBut s t (s.byteAddr 0) 3 ∧ t.pc = s.pc + 2 ∧ SameOutside s t [.memory]) ∧
    (s.byteAddr 0 < 80 → Traps (.bcd x) s (.readOnlyWrite (s.byteAddr 0))) ∧
    (4096 ≤ s.byteAddr 2 → Traps (.bcd x) s (.addressOutOfRange (firstOutside (s.byteAddr 0))))

/-- `Fx55` stores `V0` to `Vx` from `I` upward and nothing else, `I` unchanged; an address in the font region or past
memory is fatal, the first in ascending order (42_index_memory.md R224; that `I` stays is decision D18). -/
def Obligations.RegDumpStoresTheRegisters : Prop :=
  ∀ (s : State) (x : Nibble), s.MemoryCanonical →
    (80 ≤ s.byteAddr 0 → s.byteAddr x.toNat < 4096 → Completes (.regDump x) s fun t =>
      (∀ k : Nibble, k ≤ x → t.mem.byteAt (s.byteAddr k.toNat) = s.reg k) ∧
      SameMemoryBut s t (s.byteAddr 0) (x.toNat + 1) ∧ t.pc = s.pc + 2 ∧ SameOutside s t [.memory]) ∧
    (s.byteAddr 0 < 80 → Traps (.regDump x) s (.readOnlyWrite (s.byteAddr 0))) ∧
    (4096 ≤ s.byteAddr x.toNat → Traps (.regDump x) s (.addressOutOfRange (firstOutside (s.byteAddr 0))))

/-- `Fx65` loads `V0` to `Vx` from `I` upward and nothing else, `I` unchanged; an address past memory is fatal, the first
in ascending order (42_index_memory.md R225; that `I` stays is decision D18). -/
def Obligations.RegLoadReadsTheRegisters : Prop :=
  ∀ (s : State) (x : Nibble),
    (s.byteAddr x.toNat < 4096 → Completes (.regLoad x) s fun t =>
      (∀ k : Nibble, k ≤ x → t.reg k = s.mem.byteAt (s.byteAddr k.toNat)) ∧
      (∀ k : Nibble, x < k → t.reg k = s.reg k) ∧ t.pc = s.pc + 2 ∧ SameOutside s t [.regs]) ∧
    (4096 ≤ s.byteAddr x.toNat → Traps (.regLoad x) s (.addressOutOfRange (firstOutside (s.byteAddr 0))))

/-! ### Display, keypad and timers -/

/-- `00E0` makes every cell dark and changes nothing else (43_io_timers.md R240). -/
def Obligations.ClearScreenDarkensEveryCell : Prop :=
  ∀ s : State, Completes .clearScreen s fun t =>
    (∀ x y, t.fb.cell x y = false) ∧ t.pc = s.pc + 2 ∧ SameOutside s t [.screen]

/-- `Dxyn` inverts exactly the cells the sprite covers after wrapping, and `VF` is 1 exactly when one of them was set;
a sprite byte past memory is fatal, the first in ascending order (43_io_timers.md R241, 20_memory.md R90; `n = 0` is
decision D21). -/
def Obligations.DrawInvertsTheCoveredCells : Prop :=
  ∀ (s : State) (x y n : Nibble),
    (n = 0 ∨ s.byteAddr n.toNat ≤ 4096 → Completes (.draw x y n) s fun t =>
      (∀ px py, t.fb.cell px py = true ↔ (s.fb.cell px py = true ↔
        ¬Covers s.mem (s.byteAddr 0) (s.reg x).toNat (s.reg y).toNat n.toNat px py)) ∧
      (t.reg 0xF = 1 ↔ ∃ px py, s.fb.cell px py = true ∧
        Covers s.mem (s.byteAddr 0) (s.reg x).toNat (s.reg y).toNat n.toNat px py) ∧
      (t.reg 0xF = 0 ∨ t.reg 0xF = 1) ∧
      SameRegsBut s t [0xF] ∧ t.pc = s.pc + 2 ∧ SameOutside s t [.regs, .screen]) ∧
    (n ≠ 0 → 4096 < s.byteAddr n.toNat →
      Traps (.draw x y n) s (.addressOutOfRange (firstOutside (s.byteAddr 0))))

/-- Drawing the same sprite twice at the same place restores the screen, and the second draw collides exactly when the
sprite covers a cell that was dark at first (20_memory.md R90). 43_io_timers.md R241's corner case says without that
condition that the second draw collides if the sprite has any 1 bit; following R90 against that sentence is the model's
choice (assumption 14). With `x` or `y` at `F` the first draw writes the flag over the coordinate, so the second draw is
at another place; `DrawInvertsTheCoveredCells` covers each. -/
def Obligations.DrawTwiceRestoresTheScreen : Prop :=
  ∀ (s : State) (x y n : Nibble), x ≠ 0xF → y ≠ 0xF → (n = 0 ∨ s.byteAddr n.toNat ≤ 4096) →
    ∃ t u, exec (.draw x y n) s = .next t ∧ exec (.draw x y n) t = .next u ∧ u.fb = s.fb ∧
      (u.reg 0xF = 1 ↔ ∃ px py, s.fb.cell px py = false ∧
        Covers s.mem (s.byteAddr 0) (s.reg x).toNat (s.reg y).toNat n.toNat px py)

/-- `Ex9E` and `ExA1` skip exactly when the key `Vx` names is held, or is not, and change nothing else, the latch
included; a value above 0xF is fatal (43_io_timers.md R242, R243; the fault is decision D20). -/
def Obligations.KeySkipsTestTheHeldKey : Prop :=
  ∀ (s : State) (x : Nibble),
    (∀ h : (s.reg x).toNat < 16,
      (Completes (.skipKeyPressed x) s fun t =>
        (s.held[(s.reg x).toNat]'h = true → t.pc = s.pc + 4) ∧
        (s.held[(s.reg x).toNat]'h = false → t.pc = s.pc + 2) ∧ SameOutside s t []) ∧
      (Completes (.skipKeyNotPressed x) s fun t =>
        (s.held[(s.reg x).toNat]'h = false → t.pc = s.pc + 4) ∧
        (s.held[(s.reg x).toNat]'h = true → t.pc = s.pc + 2) ∧ SameOutside s t [])) ∧
    (16 ≤ (s.reg x).toNat →
      Traps (.skipKeyPressed x) s (.invalidKey (s.reg x)) ∧ Traps (.skipKeyNotPressed x) s (.invalidKey (s.reg x)))

/-- `Fx0A` consumes the pending key into `Vx`; with none pending it ends with the state as it was, `pc` at the same
instruction (43_io_timers.md R244). -/
def Obligations.KeyGetConsumesTheLatch : Prop :=
  ∀ (s : State) (x : Nibble),
    (∀ k, s.latch = some k → Completes (.keyGet x) s fun t =>
      (t.reg x).toNat = k.val ∧ t.latch = none ∧ SameRegsBut s t [x] ∧ t.pc = s.pc + 2 ∧
      SameOutside s t [.regs, .latch]) ∧
    (s.latch = none → exec (.keyGet x) s = .next s)

/-- A step that finds `Fx0A` with no key pending returns `Retry` and leaves every piece of state as it was; after a
`set_key` the same step completes (43_io_timers.md R245, decision D35; 20_memory.md R96). -/
def Obligations.WaitingKeyReadRetriesUntilAKey : Prop :=
  ∀ (s : State) (x : Nibble) (r : Byte), s.status = .running → fetch s = .ok (encode (.keyGet x)) → s.latch = none →
    s.stepPort r = .ok (.retry, s) ∧
    ∀ k : Key, ∃ t, (s.pressKey k).stepPort r = .ok (.completed, t) ∧ (t.reg x).toNat = k.val ∧ t.latch = none

/-- `Fx07` reads the delay timer, `Fx15` sets it, and `Fx18` sets the sound timer, which is active exactly when it is not
zero (43_io_timers.md R246, R247, R248). The host's read of `sound_active` says so and changes nothing (decision D32). -/
def Obligations.TimerTransfers : Prop :=
  ∀ (s : State) (x : Nibble),
    (Completes (.loadDelay x) s fun t =>
      t.reg x = s.dt ∧ SameRegsBut s t [x] ∧ t.pc = s.pc + 2 ∧ SameOutside s t [.regs]) ∧
    (Completes (.setDelay x) s fun t => t.dt = s.reg x ∧ t.pc = s.pc + 2 ∧ SameOutside s t [.delay]) ∧
    (Completes (.setSound x) s fun t =>
      t.st = s.reg x ∧ (t.soundActive = true ↔ s.reg x ≠ 0) ∧ t.pc = s.pc + 2 ∧ SameOutside s t [.sound]) ∧
    (∀ phase, ∃ on, transact ⟨s, phase⟩ .readSoundActive = .ok (.soundActive on, ⟨s, phase⟩) ∧ (on = true ↔ s.st ≠ 0))

/-! ### The host -/

/-- `tick_timers(n)` takes `min(n, 255)` off both timers, never below 0, and changes nothing else, in every session,
faulted or not (43_io_timers.md R249; that it acts while faulted is decision D37). -/
def Obligations.TimersDecayAndSaturate : Prop :=
  ∀ (c : Session) (n : Nat), ∃ c', transact c (.tickTimers n) = .ok (.done, c') ∧
    c'.block.dt.toNat = c.block.dt.toNat - min n 255 ∧ c'.block.st.toNat = c.block.st.toNat - min n 255 ∧
    c'.block.pc = c.block.pc ∧ c'.phase = c.phase ∧ SameOutside c.block c'.block [.delay, .sound]

/-- `set_key(k)` marks the key held and puts it in the latch; other held flags and everything else stay (20_memory.md
R96). -/
def Obligations.SetKeyHoldsAndLatches : Prop :=
  ∀ (c : Session) (k : Fin 16), ∃ c', transact c (.setKey k.val) = .ok (.done, c') ∧
    c'.block.held[k.val]'k.isLt = true ∧ c'.block.latch = some k ∧
    (∀ j : Fin 16, j ≠ k → c'.block.held[j.val]'j.isLt = c.block.held[j.val]'j.isLt) ∧
    c'.block.pc = c.block.pc ∧ c'.phase = c.phase ∧ SameOutside c.block c'.block [.held, .latch]

/-- `reset_keys()` releases every key and leaves the latch (20_memory.md R97, decision D27); a `set_key` above 0xF is
refused (R95, decision D34). -/
def Obligations.ResetKeysKeepsTheLatch : Prop :=
  ∀ c : Session,
    (∃ c', transact c .resetKeys = .ok (.done, c') ∧ (∀ k : Fin 16, c'.block.held[k.val]'k.isLt = false) ∧
      c'.block.pc = c.block.pc ∧ c'.phase = c.phase ∧ SameOutside c.block c'.block [.held]) ∧
    (∀ k, 16 ≤ k → transact c (.setKey k) = .error (.keyOutOfRange k))

/-- `load_program` of at most 3584 bytes puts them from 0x200 and returns their number; a longer one raises
`CapacityExceeded` and writes no byte (20_memory.md R92, R93). -/
def Obligations.LoadProgramFillsMemoryFrom200 : Prop :=
  ∀ (c : Session) (bytes : List Byte), c.phase = .fresh → c.block.MemoryCanonical →
    (bytes.length ≤ 3584 → ∃ c', transact c (.loadProgram bytes) = .ok (.loaded bytes.length, c') ∧
      (∀ k, ∀ h : k < bytes.length, c'.block.mem.byteAt (0x200 + k) = bytes[k]'h) ∧
      SameMemoryBut c.block c'.block 0x200 bytes.length ∧ c'.block.pc = c.block.pc ∧
      SameOutside c.block c'.block [.memory]) ∧
    (3584 < bytes.length → ∃ c',
      transact c (.loadProgram bytes) = .ok (.loadFault (.capacityExceeded bytes.length), c') ∧
      SamePart c.block c'.block .memory)

/-- A program loads once, after reset and before the first step, and no step follows a failed load, whatever other
transactions the host issues before the next reset: all but reset, load and step keep the phase that decides it
(20_memory.md R94 and 60_exceptions.md R272, R282; decision D29). -/
def Obligations.LoadOnlyOnceBeforeTheFirstStep : Prop :=
  (∀ (c c' : Session) (t : Transaction) (p : Reply), transact c t = .ok (p, c') → ¬MovesPhase t → c'.phase = c.phase) ∧
  (∀ (c c' d : Session) (bytes : List Byte) (p : Reply) (ts : List Transaction),
    transact c (.loadProgram bytes) = .ok (p, c') → .reset ∉ ts → transactAll c' ts = .ok d →
    (∀ more, transact d (.loadProgram more) = .error .loadNotAllowed) ∧
    (3584 < bytes.length → ∀ r, transact d (.step r) = .error .stepAfterFailedLoad)) ∧
  (∀ (c c' d : Session) (r : Byte) (p : Reply) (ts : List Transaction),
    transact c (.step r) = .ok (p, c') → .reset ∉ ts → transactAll c' ts = .ok d →
    ∀ more, transact d (.loadProgram more) = .error .loadNotAllowed) ∧
  (∀ (c : Session) (bytes : List Byte),
    ∃ c' d p, transact c .reset = .ok (.done, c') ∧ transact c' (.loadProgram bytes) = .ok (p, d))

/-- The framebuffer the host reads is row-major, 64 cells to a row, and reading it changes nothing (20_memory.md R87,
R89). -/
def Obligations.FramebufferIsRowMajor : Prop :=
  ∀ (c : Session) (x : Fin 64) (y : Fin 32), ∃ rows, transact c .readFramebuffer = .ok (.framebuffer rows, c) ∧
    rows.flatten[y.val * 64 + x.val]? = some (c.block.fb.cell x y)

/-- The reset transaction leaves every piece of the spec's state at the value of 10_state.md R51, from any session; all
but `pc` and the memory below 0x200 are the spec's decisions D3 to D8, D22 and D36. -/
def Obligations.ResetLeavesTheListedValues : Prop :=
  ∀ c : Session, ∃ c', transact c .reset = .ok (.done, c') ∧
    c'.block.pc.toNat = 0x200 ∧ (∀ x, c'.block.reg x = 0) ∧ c'.block.i = 0 ∧ c'.block.sp.val = 0 ∧
    (∀ k : Fin 16, c'.block.stack[k.val]'k.isLt = 0) ∧ c'.block.dt = 0 ∧ c'.block.st = 0 ∧
    (∀ a, a < 80 → c'.block.mem.byteAt a = Config.fontRom.getD a 0) ∧
    (∀ a, 80 ≤ a → c'.block.mem.byteAt a = 0) ∧ (∀ x y, c'.block.fb.cell x y = false) ∧
    (∀ k : Fin 16, c'.block.held[k.val]'k.isLt = false) ∧ c'.block.latch = none ∧ c'.block.status = .running

/-! ### Whole-machine rules -/

/-- `I` is written by `Annn`, `Fx1E`, `Fx29` only, `DT` by `Fx15` only, `ST` by `Fx18` only, and the stack by `2nnn` and
`00EE` only (10_state.md R36, R39 to R42, 43_io_timers.md R250). -/
def Obligations.SpecialRegistersHaveNamedWriters : Prop :=
  ∀ (i : Instr) (s t : State), exec i s = .next t →
    (t.i = s.i ∨ (∃ n, i = .loadIndex n) ∨ (∃ x, i = .addIndex x) ∨ ∃ x, i = .fontGlyph x) ∧
    (t.dt = s.dt ∨ ∃ x, i = .setDelay x) ∧ (t.st = s.st ∨ ∃ x, i = .setSound x) ∧
    ((t.sp = s.sp ∧ t.stack = s.stack) ∨ (∃ n, i = .call n) ∨ i = .ret)

/-- Memory is written by `Fx33` and `Fx55` only, the screen by `00E0` and `Dxyn` only, the latch by `Fx0A` only, and the
held flags by no instruction (20_memory.md R82, 10_state.md R45, R46). -/
def Obligations.MemoryAndDevicesHaveNamedWriters : Prop :=
  ∀ (i : Instr) (s t : State), exec i s = .next t →
    (t.mem = s.mem ∨ (∃ x, i = .bcd x) ∨ ∃ x, i = .regDump x) ∧
    (t.fb = s.fb ∨ i = .clearScreen ∨ ∃ x y n, i = .draw x y n) ∧
    (t.latch = s.latch ∨ ∃ x, i = .keyGet x) ∧ t.held = s.held

/-- A general register changes only as the result of an instruction that names it, or as `VF` under one of the six flag
writers, which leave it 0 or 1 (10_state.md R32, R33; `Traps` aside, where nothing is written). -/
def Obligations.GeneralRegistersHaveNamedWriters : Prop :=
  ∀ (i : Instr) (s t : State), exec i s = .next t →
    (∀ r, t.reg r = s.reg r ∨ WritesAsResult r i ∨ (r = 0xF ∧ IsFlagWriter i)) ∧
    (IsFlagWriter i → s.status = .running → t.status = .running → t.reg 0xF = 0 ∨ t.reg 0xF = 1)

/-- The sound timer is invisible to a program: changing it changes nothing else a step does (10_state.md R42, R48). -/
def Obligations.SoundTimerIsInvisible : Prop :=
  ∀ (s t : State) (b : Byte), step s = .next t → ∃ b', step (s.setSoundTimer b) = .next (t.setSoundTimer b')

/-- A stack slot not in use is invisible to a program: changing it changes nothing else a step does, and where the step
pushes into that slot, the change is gone, so that the relation holds again after the step (10_state.md R40, derived by the
spec). -/
def Obligations.UnusedStackSlotsAreInvisible : Prop :=
  ∀ (s t : State) (k : Fin 16) (w : Word), s.sp.val ≤ k.val → step s = .next t →
    ∃ w', step (s.setSlot k w) = .next (t.setSlot k w') ∧ (k.val < t.sp.val → w' = t.stack[k.val]'k.isLt)

/-! ### Invariants -/

/-- The canonical form of memory, the font region and the bound on `pc` hold at reset (the values are 10_state.md R51), and a
session that begins with a reset meets the invariant of sessions. -/
def Obligations.ResetMeetsTheInvariant : Prop := State.reset.Inv ∧ Session.start.Inv

/-- Every step keeps memory in its canonical form (the model's representation of 20_memory.md R70). -/
def Obligations.StepKeepsMemoryCanonical : Prop :=
  ∀ s t : State, s.MemoryCanonical → step s = .next t → t.MemoryCanonical

/-- No step changes a byte of the font region (20_memory.md R81, decision D9). -/
def Obligations.StepKeepsTheFontRegion : Prop :=
  ∀ s t : State, s.FontIntact → step s = .next t → t.FontIntact

/-- `pc` stays at or below 0x10FE, so that its 16-bit wrap is never reached: with the return addresses bounded, every step
keeps the bound (10_state.md R38, derived by the spec). -/
def Obligations.StepKeepsThePcBound : Prop :=
  ∀ s t : State, s.PcBounded → step s = .next t → t.PcBounded

/-- Every transaction the host may issue keeps the invariant, in every session, in any order (60_exceptions.md R282). -/
def Obligations.TransactionsKeepTheInvariant : Prop :=
  ∀ (c c' : Session) (t : Transaction) (r : Reply), c.block.Inv → transact c t = .ok (r, c') → c'.block.Inv

/-- In every session a host can bring about, the invariant holds, a core that has not yet stepped runs, and after a failed
load it is faulted with `CapacityExceeded` (60_exceptions.md R282, R272; the last is assumption 8). -/
def Obligations.ReachableSessionsMeetTheInvariant : Prop :=
  ∀ c : Session, Session.Reachable c →
    c.block.Inv ∧ (c.phase = .fresh ∨ c.phase = .loaded → c.Safe) ∧
    (c.phase = .loadFailed → ∃ n, 3584 < n ∧ c.block.status = .faulted (.capacityExceeded n))

/-- Every transaction the host may issue keeps the invariant of sessions, its clauses about the phase included, from every
session that meets it (60_exceptions.md R282, R272; what `Status` holds after a failed load is assumption 8). -/
def Obligations.TransactionsKeepTheSessionInvariant : Prop :=
  ∀ (c c' : Session) (t : Transaction) (r : Reply), c.Inv → transact c t = .ok (r, c') → c'.Inv
end

