-- ==== Sys2Proof/Laws/Decode.lean ====
section
/-! SUPPORT. The fields of a word as numbers, the decoder at the default `ABSENT_ROWS`, and the two bytes of a word. -/

namespace Sys2Proof

theorem toNat_nibbleA (w : Word) : (nibbleA w).toNat = w.toNat / 4096 % 16 := by
  simp [nibbleA, Nat.shiftRight_eq_div_pow]

theorem toNat_nibbleB (w : Word) : (nibbleB w).toNat = w.toNat / 256 % 16 := by
  simp [nibbleB, Nat.shiftRight_eq_div_pow]

theorem toNat_nibbleC (w : Word) : (nibbleC w).toNat = w.toNat / 16 % 16 := by
  simp [nibbleC, Nat.shiftRight_eq_div_pow]

theorem toNat_nibbleD (w : Word) : (nibbleD w).toNat = w.toNat % 16 := by simp [nibbleD]

theorem toNat_fieldKK (w : Word) : (fieldKK w).toNat = w.toNat % 256 := by simp [fieldKK]

theorem toNat_fieldNNN (w : Word) : (fieldNNN w).toNat = w.toNat % 4096 := by simp [fieldNNN]

theorem toNat_highByte (w : Word) : (highByte w).toNat = w.toNat / 256 := by
  have := w.isLt
  simp [highByte, Nat.shiftRight_eq_div_pow]
  omega

theorem toNat_lowByte (w : Word) : (lowByte w).toNat = w.toNat % 256 := by simp [lowByte]

theorem toNat_wordOfBytes (hi lo : Byte) : (wordOfBytes hi lo).toNat = hi.toNat * 256 + lo.toNat := by
  have := hi.isLt
  have := lo.isLt
  simp [wordOfBytes]
  omega

/-- The two bytes of a word join to it again (20_memory.md R75). -/
@[simp] theorem wordOfBytes_bytes (w : Word) : wordOfBytes (highByte w) (lowByte w) = w := by
  apply BitVec.eq_of_toNat_eq
  rw [toNat_wordOfBytes, toNat_highByte, toNat_lowByte]
  omega

/-- At the default `ABSENT_ROWS` the decoder is the procedure of 30_encoding.md R123. -/
theorem decode_eq (w : Word) :
    decode w = match decodeRow w with | none => .error (.unrecognizedOpcode w) | some i => .ok i := by
  unfold decode
  cases decodeRow w <;> simp [Config.absentRows]

theorem decode_eq_ok {w : Word} {i : Instr} : decode w = .ok i ↔ decodeRow w = some i := by
  rw [decode_eq]
  cases decodeRow w <;> simp

/-- The decoder fails in one way only, with the word it was given (30_encoding.md R127). -/
theorem decode_eq_error {w : Word} {e : DecodeError} :
    decode w = .error e ↔ decodeRow w = none ∧ e = .unrecognizedOpcode w := by
  rw [decode_eq]
  cases decodeRow w <;> simp [eq_comm]

/-! ### The decoder by its leading nibble (30_encoding.md R123) -/

/-- A nibble is one of sixteen values. -/
theorem nibble_cases : ∀ n : Nibble, n = 0x0 ∨ n = 0x1 ∨ n = 0x2 ∨ n = 0x3 ∨ n = 0x4 ∨ n = 0x5 ∨ n = 0x6 ∨ n = 0x7 ∨
    n = 0x8 ∨ n = 0x9 ∨ n = 0xA ∨ n = 0xB ∨ n = 0xC ∨ n = 0xD ∨ n = 0xE ∨ n = 0xF := by decide

theorem decodeRow_0 {w : Word} (h : nibbleA w = 0x0) : decodeRow w = some (decodeSystem w) := by
  simp [decodeRow, h]

theorem decodeRow_1 {w : Word} (h : nibbleA w = 0x1) : decodeRow w = some (.jump (fieldNNN w)) := by
  simp [decodeRow, h]

theorem decodeRow_2 {w : Word} (h : nibbleA w = 0x2) : decodeRow w = some (.call (fieldNNN w)) := by
  simp [decodeRow, h]

theorem decodeRow_3 {w : Word} (h : nibbleA w = 0x3) : decodeRow w = some (.skipEqByte (nibbleB w) (fieldKK w)) := by
  simp [decodeRow, h]

theorem decodeRow_4 {w : Word} (h : nibbleA w = 0x4) : decodeRow w = some (.skipNeByte (nibbleB w) (fieldKK w)) := by
  simp [decodeRow, h]

theorem decodeRow_5 {w : Word} (h : nibbleA w = 0x5) : decodeRow w = if nibbleD w = 0 then some (.skipEqReg (nibbleB w) (nibbleC w)) else none := by
  simp [decodeRow, h]

theorem decodeRow_6 {w : Word} (h : nibbleA w = 0x6) : decodeRow w = some (.loadByte (nibbleB w) (fieldKK w)) := by
  simp [decodeRow, h]

theorem decodeRow_7 {w : Word} (h : nibbleA w = 0x7) : decodeRow w = some (.addByte (nibbleB w) (fieldKK w)) := by
  simp [decodeRow, h]

theorem decodeRow_8 {w : Word} (h : nibbleA w = 0x8) : decodeRow w = decodeMath (nibbleB w) (nibbleC w) (nibbleD w) := by
  simp [decodeRow, h]

theorem decodeRow_9 {w : Word} (h : nibbleA w = 0x9) : decodeRow w = if nibbleD w = 0 then some (.skipNeReg (nibbleB w) (nibbleC w)) else none := by
  simp [decodeRow, h]

theorem decodeRow_A {w : Word} (h : nibbleA w = 0xA) : decodeRow w = some (.loadIndex (fieldNNN w)) := by
  simp [decodeRow, h]

theorem decodeRow_B {w : Word} (h : nibbleA w = 0xB) : decodeRow w = some (.jumpV0 (fieldNNN w)) := by
  simp [decodeRow, h]

theorem decodeRow_C {w : Word} (h : nibbleA w = 0xC) : decodeRow w = some (.rand (nibbleB w) (fieldKK w)) := by
  simp [decodeRow, h]

theorem decodeRow_D {w : Word} (h : nibbleA w = 0xD) : decodeRow w = some (.draw (nibbleB w) (nibbleC w) (nibbleD w)) := by
  simp [decodeRow, h]

theorem decodeRow_E {w : Word} (h : nibbleA w = 0xE) : decodeRow w = decodeKey (nibbleB w) (fieldKK w) := by
  simp [decodeRow, h]

theorem decodeRow_F {w : Word} (h : nibbleA w = 0xF) : decodeRow w = decodeMisc (nibbleB w) (fieldKK w) := by
  simp [decodeRow, h]

theorem toNat_wordNNN {a : Nat} (h : a < 16) (nnn : Addr12) : (wordNNN a nnn).toNat = a * 4096 + nnn.toNat := by
  have := nnn.isLt
  simp [wordNNN]
  omega

theorem toNat_wordXKK {a : Nat} (h : a < 16) (x : Nibble) (kk : Byte) :
    (wordXKK a x kk).toNat = a * 4096 + x.toNat * 256 + kk.toNat := by
  have := x.isLt
  have := kk.isLt
  simp [wordXKK]
  omega

theorem toNat_wordXYN {a : Nat} (h : a < 16) (x y d : Nibble) :
    (wordXYN a x y d).toNat = a * 4096 + x.toNat * 256 + y.toNat * 16 + d.toNat := by
  have := x.isLt
  have := y.isLt
  have := d.isLt
  simp [wordXYN]
  omega

/-! ### The fields of an encoded word -/

@[simp] theorem nibbleA_wordNNN {a : Nat} (h : a < 16) (nnn : Addr12) : nibbleA (wordNNN a nnn) = BitVec.ofNat 4 a := by
  have := nnn.isLt
  apply BitVec.eq_of_toNat_eq
  rw [toNat_nibbleA, toNat_wordNNN h, BitVec.toNat_ofNat]
  omega

@[simp] theorem fieldNNN_wordNNN {a : Nat} (h : a < 16) (nnn : Addr12) : fieldNNN (wordNNN a nnn) = nnn := by
  have := nnn.isLt
  apply BitVec.eq_of_toNat_eq
  rw [toNat_fieldNNN, toNat_wordNNN h]
  omega

@[simp] theorem nibbleA_wordXKK {a : Nat} (h : a < 16) (x : Nibble) (kk : Byte) :
    nibbleA (wordXKK a x kk) = BitVec.ofNat 4 a := by
  have := x.isLt
  have := kk.isLt
  apply BitVec.eq_of_toNat_eq
  rw [toNat_nibbleA, toNat_wordXKK h, BitVec.toNat_ofNat]
  omega

@[simp] theorem nibbleB_wordXKK {a : Nat} (h : a < 16) (x : Nibble) (kk : Byte) : nibbleB (wordXKK a x kk) = x := by
  have := x.isLt
  have := kk.isLt
  apply BitVec.eq_of_toNat_eq
  rw [toNat_nibbleB, toNat_wordXKK h]
  omega

@[simp] theorem fieldKK_wordXKK {a : Nat} (h : a < 16) (x : Nibble) (kk : Byte) : fieldKK (wordXKK a x kk) = kk := by
  have := kk.isLt
  apply BitVec.eq_of_toNat_eq
  rw [toNat_fieldKK, toNat_wordXKK h]
  omega

@[simp] theorem nibbleA_wordXYN {a : Nat} (h : a < 16) (x y d : Nibble) :
    nibbleA (wordXYN a x y d) = BitVec.ofNat 4 a := by
  have := x.isLt
  have := y.isLt
  have := d.isLt
  apply BitVec.eq_of_toNat_eq
  rw [toNat_nibbleA, toNat_wordXYN h, BitVec.toNat_ofNat]
  omega

@[simp] theorem nibbleB_wordXYN {a : Nat} (h : a < 16) (x y d : Nibble) : nibbleB (wordXYN a x y d) = x := by
  have := x.isLt
  have := y.isLt
  have := d.isLt
  apply BitVec.eq_of_toNat_eq
  rw [toNat_nibbleB, toNat_wordXYN h]
  omega

@[simp] theorem nibbleC_wordXYN {a : Nat} (h : a < 16) (x y d : Nibble) : nibbleC (wordXYN a x y d) = y := by
  have := y.isLt
  have := d.isLt
  apply BitVec.eq_of_toNat_eq
  rw [toNat_nibbleC, toNat_wordXYN h]
  omega

@[simp] theorem nibbleD_wordXYN {a : Nat} (h : a < 16) (x y d : Nibble) : nibbleD (wordXYN a x y d) = d := by
  have := d.isLt
  apply BitVec.eq_of_toNat_eq
  rw [toNat_nibbleD, toNat_wordXYN h]
  omega

/-- The word of a 16-bit row is itself. -/
@[simp] theorem tableWord_toNat (w : Word) : tableWord 16 w.toNat = w := by
  apply BitVec.eq_of_toNat_eq
  have := w.isLt
  simp [tableWord]
  omega

end Sys2Proof
end

