-- ==== Sys2Proof/Laws/Memory.lean ====
section
/-! SUPPORT. The laws of the memory list: reading after a write, what a write leaves alone, and that every operation keeps
the canonical form. -/

namespace Sys2Proof.Machine

/-- The canonical form from an address, entry by entry. -/
theorem wfFrom_cons {lo a : Nat} {v : Byte} {m : Memory} :
    Memory.wfFrom lo ((a, v) :: m) = true ↔
      lo ≤ a ∧ a < 4096 ∧ v ≠ Memory.unlisted a ∧ Memory.wfFrom (a + 1) m = true := by
  simp only [Memory.wfFrom, Bool.and_eq_true, decide_eq_true_eq, bne_iff_ne, and_assoc]

/-- The canonical form from an address is one from every lower address. -/
theorem wfFrom_mono {lo lo' : Nat} {m : Memory} (h : lo' ≤ lo) (hm : Memory.wfFrom lo m = true) :
    Memory.wfFrom lo' m = true := by
  cases m with
  | nil => rfl
  | cons c m => obtain ⟨a, v⟩ := c; rw [wfFrom_cons] at *; exact ⟨by omega, hm.2⟩

/-- Below the first listed address, memory reads as unlisted. -/
theorem byteAt_below {lo a : Nat} {m : Memory} (hm : Memory.wfFrom lo m = true) (h : a < lo) :
    m.byteAt a = Memory.unlisted a := by
  induction m generalizing lo with
  | nil => rfl
  | cons c m ih =>
    obtain ⟨b, v⟩ := c
    rw [wfFrom_cons] at hm
    rw [Memory.byteAt, if_neg (by omega)]
    exact ih hm.2.2.2 (by omega)

/-- A write leaves every other byte alone. -/
theorem byteAt_setByte_of_ne {a b : Nat} {v : Byte} {m : Memory} (h : b ≠ a) :
    (m.setByte a v).byteAt b = m.byteAt b := by
  induction m with
  | nil => simp only [Memory.setByte]; split <;> simp [Memory.byteAt, h]
  | cons c m ih =>
    obtain ⟨d, w⟩ := c
    simp only [Memory.setByte]
    split
    · split <;> simp [Memory.byteAt, h]
    · split
      · subst_vars; split <;> simp [Memory.byteAt, h]
      · simp only [Memory.byteAt, ih]

/-- A byte reads back what was written to it. -/
theorem byteAt_setByte_self {lo a : Nat} {v : Byte} {m : Memory} (hm : Memory.wfFrom lo m = true) :
    (m.setByte a v).byteAt a = v := by
  induction m generalizing lo with
  | nil => simp only [Memory.setByte]; split <;> simp_all [Memory.byteAt]
  | cons c m ih =>
    obtain ⟨d, w⟩ := c
    have hm' := hm
    rw [wfFrom_cons] at hm
    simp only [Memory.setByte]
    split
    · split
      · rename_i h1 h2
        rw [h2, byteAt_below (lo := d) (wfFrom_cons.2 ⟨le_refl d, hm.2⟩) h1]
      · simp [Memory.byteAt]
    · split
      · split
        · rename_i h1 h2 h3
          rw [h3, byteAt_below hm.2.2.2 (by omega)]
        · simp [Memory.byteAt]
      · rename_i h1 h2
        rw [Memory.byteAt, if_neg h2]
        exact ih hm.2.2.2

/-- Reading any byte after a write of one byte. -/
theorem byteAt_setByte {a b : Nat} {v : Byte} {m : Memory} (hm : m.wf = true) :
    (m.setByte a v).byteAt b = if b = a then v else m.byteAt b := by
  split
  · subst_vars; exact byteAt_setByte_self hm
  · exact byteAt_setByte_of_ne ‹_›

/-- A write keeps the canonical form from every address up to the written one. -/
theorem wfFrom_setByte {lo a : Nat} {v : Byte} {m : Memory} (hm : Memory.wfFrom lo m = true) (hl : lo ≤ a)
    (ha : a < 4096) : Memory.wfFrom lo (m.setByte a v) = true := by
  induction m generalizing lo with
  | nil =>
    simp only [Memory.setByte]
    split
    · rfl
    · exact wfFrom_cons.2 ⟨hl, ha, ‹_›, rfl⟩
  | cons c m ih =>
    obtain ⟨d, w⟩ := c
    rw [wfFrom_cons] at hm
    obtain ⟨h1, h2, h3, h4⟩ := hm
    simp only [Memory.setByte]
    split
    · split
      · exact wfFrom_cons.2 ⟨h1, h2, h3, h4⟩
      · exact wfFrom_cons.2 ⟨hl, ha, ‹_›, wfFrom_cons.2 ⟨by omega, h2, h3, h4⟩⟩
    · split
      · subst_vars
        split
        · exact wfFrom_mono (by omega) h4
        · exact wfFrom_cons.2 ⟨h1, h2, ‹_›, h4⟩
      · exact wfFrom_cons.2 ⟨h1, h2, h3, ih h4 (by omega)⟩

/-- A write of one byte keeps the canonical form. -/
theorem wf_setByte {a : Nat} {v : Byte} {m : Memory} (hm : m.wf = true) (ha : a < 4096) : (m.setByte a v).wf = true :=
  wfFrom_setByte hm (Nat.zero_le _) ha

/-- A write of several bytes keeps the canonical form. -/
theorem wf_writeBytes {a : Nat} {bytes : List Byte} {m : Memory} (hm : m.wf = true) (ha : a + bytes.length ≤ 4096) :
    (m.writeBytes a bytes).wf = true := by
  induction bytes generalizing a m with
  | nil => exact hm
  | cons v rest ih =>
    simp only [List.length_cons] at ha
    exact ih (wf_setByte hm (by omega)) (by omega)

/-- A write of several bytes leaves every byte outside them alone. -/
theorem byteAt_writeBytes_outside {a b : Nat} {bytes : List Byte} {m : Memory} (h : b < a ∨ a + bytes.length ≤ b) :
    (m.writeBytes a bytes).byteAt b = m.byteAt b := by
  induction bytes generalizing a m with
  | nil => rfl
  | cons v rest ih =>
    simp only [List.length_cons] at h
    rw [Memory.writeBytes, ih (by omega), byteAt_setByte_of_ne (by omega)]

/-- The k-th byte of a write reads back. -/
theorem byteAt_writeBytes_inside {a k : Nat} {bytes : List Byte} {m : Memory} (hm : m.wf = true)
    (ha : a + bytes.length ≤ 4096) (hk : k < bytes.length) : (m.writeBytes a bytes).byteAt (a + k) = bytes[k] := by
  induction bytes generalizing a k m with
  | nil => simp at hk
  | cons v rest ih =>
    simp only [List.length_cons] at ha hk
    cases k with
    | zero =>
      rw [Memory.writeBytes, byteAt_writeBytes_outside (by omega), byteAt_setByte hm]
      simp
    | succ k =>
      have := ih (a := a + 1) (k := k) (wf_setByte (a := a) (v := v) hm (by omega)) (by omega) (by omega)
      simpa [Memory.writeBytes, Nat.add_assoc, Nat.add_comm 1 k] using this

/-- Memories in canonical form that read alike are equal lists. -/
theorem eq_of_byteAt_eq {lo : Nat} {m m' : Memory} (hm : Memory.wfFrom lo m = true) (hm' : Memory.wfFrom lo m' = true)
    (h : ∀ a, m.byteAt a = m'.byteAt a) : m = m' := by
  induction m generalizing lo m' with
  | nil =>
    cases m' with
    | nil => rfl
    | cons c m' =>
      obtain ⟨b, w⟩ := c
      exact absurd (by simpa [Memory.byteAt] using (h b).symm) (wfFrom_cons.1 hm').2.2.1
  | cons c m ih =>
    obtain ⟨a, v⟩ := c
    cases m' with
    | nil => exact absurd (by simpa [Memory.byteAt] using h a) (wfFrom_cons.1 hm).2.2.1
    | cons c' m' =>
      obtain ⟨b, w⟩ := c'
      obtain ⟨-, -, hv, hr⟩ := wfFrom_cons.1 hm
      obtain ⟨-, -, hw, hr'⟩ := wfFrom_cons.1 hm'
      have hab : a = b := by
        rcases Nat.lt_trichotomy a b with hlt | heq | hgt
        · have := h a
          rw [Memory.byteAt, if_pos rfl, byteAt_below (wfFrom_cons.2 ⟨le_refl b, (wfFrom_cons.1 hm').2⟩) hlt] at this
          exact absurd this hv
        · exact heq
        · have := (h b).symm
          rw [Memory.byteAt, if_pos rfl, byteAt_below (wfFrom_cons.2 ⟨le_refl a, (wfFrom_cons.1 hm).2⟩) hgt] at this
          exact absurd this hw
      subst hab
      have hvw : v = w := by simpa [Memory.byteAt] using h a
      subst hvw
      refine congrArg _ (ih hr hr' fun d => ?_)
      by_cases hd : d = a
      · subst hd; rw [byteAt_below hr (by omega), byteAt_below hr' (by omega)]
      · simpa [Memory.byteAt, hd] using h d

/-- The bytes read from an address, one by one. -/
theorem getElem_bytesFrom {a n k : Nat} {m : Memory} (hk : k < n) :
    (m.bytesFrom a n)[k]'(by simpa [Memory.bytesFrom] using hk) = m.byteAt (a + k) := by
  simp [Memory.bytesFrom]

/-- As many bytes are read as asked for. -/
@[simp] theorem length_bytesFrom {a n : Nat} {m : Memory} : (m.bytesFrom a n).length = n := by simp [Memory.bytesFrom]

end Sys2Proof.Machine
end

