-- ==== Sys2Proof/Laws/State.lean ====
section
/-! SUPPORT. One lemma for each field of State under each update, true by unfolding, so that no proof unfolds a record
update; and the laws of reading a register after a write. -/

namespace Sys2Proof.Machine

variable (s : State)

/-! ### `State.setReg` -/

@[simp] theorem setReg_v (x : Nibble) (b : Byte) : (s.setReg x b).v = s.v.set x.toNat b x.isLt := rfl
@[simp] theorem setReg_i (x : Nibble) (b : Byte) : (s.setReg x b).i = s.i := rfl
@[simp] theorem setReg_pc (x : Nibble) (b : Byte) : (s.setReg x b).pc = s.pc := rfl
@[simp] theorem setReg_stack (x : Nibble) (b : Byte) : (s.setReg x b).stack = s.stack := rfl
@[simp] theorem setReg_sp (x : Nibble) (b : Byte) : (s.setReg x b).sp = s.sp := rfl
@[simp] theorem setReg_dt (x : Nibble) (b : Byte) : (s.setReg x b).dt = s.dt := rfl
@[simp] theorem setReg_st (x : Nibble) (b : Byte) : (s.setReg x b).st = s.st := rfl
@[simp] theorem setReg_mem (x : Nibble) (b : Byte) : (s.setReg x b).mem = s.mem := rfl
@[simp] theorem setReg_fb (x : Nibble) (b : Byte) : (s.setReg x b).fb = s.fb := rfl
@[simp] theorem setReg_held (x : Nibble) (b : Byte) : (s.setReg x b).held = s.held := rfl
@[simp] theorem setReg_latch (x : Nibble) (b : Byte) : (s.setReg x b).latch = s.latch := rfl
@[simp] theorem setReg_status (x : Nibble) (b : Byte) : (s.setReg x b).status = s.status := rfl
@[simp] theorem setReg_randomIn (x : Nibble) (b : Byte) : (s.setReg x b).randomIn = s.randomIn := rfl
@[simp] theorem setReg_draws (x : Nibble) (b : Byte) : (s.setReg x b).draws = s.draws := rfl

/-! ### `State.setPc` -/

@[simp] theorem setPc_v (t : Word) : (s.setPc t).v = s.v := rfl
@[simp] theorem setPc_i (t : Word) : (s.setPc t).i = s.i := rfl
@[simp] theorem setPc_pc (t : Word) : (s.setPc t).pc = t := rfl
@[simp] theorem setPc_stack (t : Word) : (s.setPc t).stack = s.stack := rfl
@[simp] theorem setPc_sp (t : Word) : (s.setPc t).sp = s.sp := rfl
@[simp] theorem setPc_dt (t : Word) : (s.setPc t).dt = s.dt := rfl
@[simp] theorem setPc_st (t : Word) : (s.setPc t).st = s.st := rfl
@[simp] theorem setPc_mem (t : Word) : (s.setPc t).mem = s.mem := rfl
@[simp] theorem setPc_fb (t : Word) : (s.setPc t).fb = s.fb := rfl
@[simp] theorem setPc_held (t : Word) : (s.setPc t).held = s.held := rfl
@[simp] theorem setPc_latch (t : Word) : (s.setPc t).latch = s.latch := rfl
@[simp] theorem setPc_status (t : Word) : (s.setPc t).status = s.status := rfl
@[simp] theorem setPc_randomIn (t : Word) : (s.setPc t).randomIn = s.randomIn := rfl
@[simp] theorem setPc_draws (t : Word) : (s.setPc t).draws = s.draws := rfl

/-! ### `State.setIndex` -/

@[simp] theorem setIndex_v (a : Word) : (s.setIndex a).v = s.v := rfl
@[simp] theorem setIndex_i (a : Word) : (s.setIndex a).i = a := rfl
@[simp] theorem setIndex_pc (a : Word) : (s.setIndex a).pc = s.pc := rfl
@[simp] theorem setIndex_stack (a : Word) : (s.setIndex a).stack = s.stack := rfl
@[simp] theorem setIndex_sp (a : Word) : (s.setIndex a).sp = s.sp := rfl
@[simp] theorem setIndex_dt (a : Word) : (s.setIndex a).dt = s.dt := rfl
@[simp] theorem setIndex_st (a : Word) : (s.setIndex a).st = s.st := rfl
@[simp] theorem setIndex_mem (a : Word) : (s.setIndex a).mem = s.mem := rfl
@[simp] theorem setIndex_fb (a : Word) : (s.setIndex a).fb = s.fb := rfl
@[simp] theorem setIndex_held (a : Word) : (s.setIndex a).held = s.held := rfl
@[simp] theorem setIndex_latch (a : Word) : (s.setIndex a).latch = s.latch := rfl
@[simp] theorem setIndex_status (a : Word) : (s.setIndex a).status = s.status := rfl
@[simp] theorem setIndex_randomIn (a : Word) : (s.setIndex a).randomIn = s.randomIn := rfl
@[simp] theorem setIndex_draws (a : Word) : (s.setIndex a).draws = s.draws := rfl

/-! ### `State.setDelayTimer` -/

@[simp] theorem setDelayTimer_v (b : Byte) : (s.setDelayTimer b).v = s.v := rfl
@[simp] theorem setDelayTimer_i (b : Byte) : (s.setDelayTimer b).i = s.i := rfl
@[simp] theorem setDelayTimer_pc (b : Byte) : (s.setDelayTimer b).pc = s.pc := rfl
@[simp] theorem setDelayTimer_stack (b : Byte) : (s.setDelayTimer b).stack = s.stack := rfl
@[simp] theorem setDelayTimer_sp (b : Byte) : (s.setDelayTimer b).sp = s.sp := rfl
@[simp] theorem setDelayTimer_dt (b : Byte) : (s.setDelayTimer b).dt = b := rfl
@[simp] theorem setDelayTimer_st (b : Byte) : (s.setDelayTimer b).st = s.st := rfl
@[simp] theorem setDelayTimer_mem (b : Byte) : (s.setDelayTimer b).mem = s.mem := rfl
@[simp] theorem setDelayTimer_fb (b : Byte) : (s.setDelayTimer b).fb = s.fb := rfl
@[simp] theorem setDelayTimer_held (b : Byte) : (s.setDelayTimer b).held = s.held := rfl
@[simp] theorem setDelayTimer_latch (b : Byte) : (s.setDelayTimer b).latch = s.latch := rfl
@[simp] theorem setDelayTimer_status (b : Byte) : (s.setDelayTimer b).status = s.status := rfl
@[simp] theorem setDelayTimer_randomIn (b : Byte) : (s.setDelayTimer b).randomIn = s.randomIn := rfl
@[simp] theorem setDelayTimer_draws (b : Byte) : (s.setDelayTimer b).draws = s.draws := rfl

/-! ### `State.setSoundTimer` -/

@[simp] theorem setSoundTimer_v (b : Byte) : (s.setSoundTimer b).v = s.v := rfl
@[simp] theorem setSoundTimer_i (b : Byte) : (s.setSoundTimer b).i = s.i := rfl
@[simp] theorem setSoundTimer_pc (b : Byte) : (s.setSoundTimer b).pc = s.pc := rfl
@[simp] theorem setSoundTimer_stack (b : Byte) : (s.setSoundTimer b).stack = s.stack := rfl
@[simp] theorem setSoundTimer_sp (b : Byte) : (s.setSoundTimer b).sp = s.sp := rfl
@[simp] theorem setSoundTimer_dt (b : Byte) : (s.setSoundTimer b).dt = s.dt := rfl
@[simp] theorem setSoundTimer_st (b : Byte) : (s.setSoundTimer b).st = b := rfl
@[simp] theorem setSoundTimer_mem (b : Byte) : (s.setSoundTimer b).mem = s.mem := rfl
@[simp] theorem setSoundTimer_fb (b : Byte) : (s.setSoundTimer b).fb = s.fb := rfl
@[simp] theorem setSoundTimer_held (b : Byte) : (s.setSoundTimer b).held = s.held := rfl
@[simp] theorem setSoundTimer_latch (b : Byte) : (s.setSoundTimer b).latch = s.latch := rfl
@[simp] theorem setSoundTimer_status (b : Byte) : (s.setSoundTimer b).status = s.status := rfl
@[simp] theorem setSoundTimer_randomIn (b : Byte) : (s.setSoundTimer b).randomIn = s.randomIn := rfl
@[simp] theorem setSoundTimer_draws (b : Byte) : (s.setSoundTimer b).draws = s.draws := rfl

/-! ### `State.setMem` -/

@[simp] theorem setMem_v (m : Memory) : (s.setMem m).v = s.v := rfl
@[simp] theorem setMem_i (m : Memory) : (s.setMem m).i = s.i := rfl
@[simp] theorem setMem_pc (m : Memory) : (s.setMem m).pc = s.pc := rfl
@[simp] theorem setMem_stack (m : Memory) : (s.setMem m).stack = s.stack := rfl
@[simp] theorem setMem_sp (m : Memory) : (s.setMem m).sp = s.sp := rfl
@[simp] theorem setMem_dt (m : Memory) : (s.setMem m).dt = s.dt := rfl
@[simp] theorem setMem_st (m : Memory) : (s.setMem m).st = s.st := rfl
@[simp] theorem setMem_mem (m : Memory) : (s.setMem m).mem = m := rfl
@[simp] theorem setMem_fb (m : Memory) : (s.setMem m).fb = s.fb := rfl
@[simp] theorem setMem_held (m : Memory) : (s.setMem m).held = s.held := rfl
@[simp] theorem setMem_latch (m : Memory) : (s.setMem m).latch = s.latch := rfl
@[simp] theorem setMem_status (m : Memory) : (s.setMem m).status = s.status := rfl
@[simp] theorem setMem_randomIn (m : Memory) : (s.setMem m).randomIn = s.randomIn := rfl
@[simp] theorem setMem_draws (m : Memory) : (s.setMem m).draws = s.draws := rfl

/-! ### `State.setScreen` -/

@[simp] theorem setScreen_v (f : Screen) : (s.setScreen f).v = s.v := rfl
@[simp] theorem setScreen_i (f : Screen) : (s.setScreen f).i = s.i := rfl
@[simp] theorem setScreen_pc (f : Screen) : (s.setScreen f).pc = s.pc := rfl
@[simp] theorem setScreen_stack (f : Screen) : (s.setScreen f).stack = s.stack := rfl
@[simp] theorem setScreen_sp (f : Screen) : (s.setScreen f).sp = s.sp := rfl
@[simp] theorem setScreen_dt (f : Screen) : (s.setScreen f).dt = s.dt := rfl
@[simp] theorem setScreen_st (f : Screen) : (s.setScreen f).st = s.st := rfl
@[simp] theorem setScreen_mem (f : Screen) : (s.setScreen f).mem = s.mem := rfl
@[simp] theorem setScreen_fb (f : Screen) : (s.setScreen f).fb = f := rfl
@[simp] theorem setScreen_held (f : Screen) : (s.setScreen f).held = s.held := rfl
@[simp] theorem setScreen_latch (f : Screen) : (s.setScreen f).latch = s.latch := rfl
@[simp] theorem setScreen_status (f : Screen) : (s.setScreen f).status = s.status := rfl
@[simp] theorem setScreen_randomIn (f : Screen) : (s.setScreen f).randomIn = s.randomIn := rfl
@[simp] theorem setScreen_draws (f : Screen) : (s.setScreen f).draws = s.draws := rfl

/-! ### `State.setHeld` -/

@[simp] theorem setHeld_v (h : Vector Bool 16) : (s.setHeld h).v = s.v := rfl
@[simp] theorem setHeld_i (h : Vector Bool 16) : (s.setHeld h).i = s.i := rfl
@[simp] theorem setHeld_pc (h : Vector Bool 16) : (s.setHeld h).pc = s.pc := rfl
@[simp] theorem setHeld_stack (h : Vector Bool 16) : (s.setHeld h).stack = s.stack := rfl
@[simp] theorem setHeld_sp (h : Vector Bool 16) : (s.setHeld h).sp = s.sp := rfl
@[simp] theorem setHeld_dt (h : Vector Bool 16) : (s.setHeld h).dt = s.dt := rfl
@[simp] theorem setHeld_st (h : Vector Bool 16) : (s.setHeld h).st = s.st := rfl
@[simp] theorem setHeld_mem (h : Vector Bool 16) : (s.setHeld h).mem = s.mem := rfl
@[simp] theorem setHeld_fb (h : Vector Bool 16) : (s.setHeld h).fb = s.fb := rfl
@[simp] theorem setHeld_held (h : Vector Bool 16) : (s.setHeld h).held = h := rfl
@[simp] theorem setHeld_latch (h : Vector Bool 16) : (s.setHeld h).latch = s.latch := rfl
@[simp] theorem setHeld_status (h : Vector Bool 16) : (s.setHeld h).status = s.status := rfl
@[simp] theorem setHeld_randomIn (h : Vector Bool 16) : (s.setHeld h).randomIn = s.randomIn := rfl
@[simp] theorem setHeld_draws (h : Vector Bool 16) : (s.setHeld h).draws = s.draws := rfl

/-! ### `State.setLatch` -/

@[simp] theorem setLatch_v (k : Option Key) : (s.setLatch k).v = s.v := rfl
@[simp] theorem setLatch_i (k : Option Key) : (s.setLatch k).i = s.i := rfl
@[simp] theorem setLatch_pc (k : Option Key) : (s.setLatch k).pc = s.pc := rfl
@[simp] theorem setLatch_stack (k : Option Key) : (s.setLatch k).stack = s.stack := rfl
@[simp] theorem setLatch_sp (k : Option Key) : (s.setLatch k).sp = s.sp := rfl
@[simp] theorem setLatch_dt (k : Option Key) : (s.setLatch k).dt = s.dt := rfl
@[simp] theorem setLatch_st (k : Option Key) : (s.setLatch k).st = s.st := rfl
@[simp] theorem setLatch_mem (k : Option Key) : (s.setLatch k).mem = s.mem := rfl
@[simp] theorem setLatch_fb (k : Option Key) : (s.setLatch k).fb = s.fb := rfl
@[simp] theorem setLatch_held (k : Option Key) : (s.setLatch k).held = s.held := rfl
@[simp] theorem setLatch_latch (k : Option Key) : (s.setLatch k).latch = k := rfl
@[simp] theorem setLatch_status (k : Option Key) : (s.setLatch k).status = s.status := rfl
@[simp] theorem setLatch_randomIn (k : Option Key) : (s.setLatch k).randomIn = s.randomIn := rfl
@[simp] theorem setLatch_draws (k : Option Key) : (s.setLatch k).draws = s.draws := rfl

/-! ### `State.setStatus` -/

@[simp] theorem setStatus_v (t : Status) : (s.setStatus t).v = s.v := rfl
@[simp] theorem setStatus_i (t : Status) : (s.setStatus t).i = s.i := rfl
@[simp] theorem setStatus_pc (t : Status) : (s.setStatus t).pc = s.pc := rfl
@[simp] theorem setStatus_stack (t : Status) : (s.setStatus t).stack = s.stack := rfl
@[simp] theorem setStatus_sp (t : Status) : (s.setStatus t).sp = s.sp := rfl
@[simp] theorem setStatus_dt (t : Status) : (s.setStatus t).dt = s.dt := rfl
@[simp] theorem setStatus_st (t : Status) : (s.setStatus t).st = s.st := rfl
@[simp] theorem setStatus_mem (t : Status) : (s.setStatus t).mem = s.mem := rfl
@[simp] theorem setStatus_fb (t : Status) : (s.setStatus t).fb = s.fb := rfl
@[simp] theorem setStatus_held (t : Status) : (s.setStatus t).held = s.held := rfl
@[simp] theorem setStatus_latch (t : Status) : (s.setStatus t).latch = s.latch := rfl
@[simp] theorem setStatus_status (t : Status) : (s.setStatus t).status = t := rfl
@[simp] theorem setStatus_randomIn (t : Status) : (s.setStatus t).randomIn = s.randomIn := rfl
@[simp] theorem setStatus_draws (t : Status) : (s.setStatus t).draws = s.draws := rfl

/-! ### `State.setSp` -/

@[simp] theorem setSp_v (n : Fin 17) : (s.setSp n).v = s.v := rfl
@[simp] theorem setSp_i (n : Fin 17) : (s.setSp n).i = s.i := rfl
@[simp] theorem setSp_pc (n : Fin 17) : (s.setSp n).pc = s.pc := rfl
@[simp] theorem setSp_stack (n : Fin 17) : (s.setSp n).stack = s.stack := rfl
@[simp] theorem setSp_sp (n : Fin 17) : (s.setSp n).sp = n := rfl
@[simp] theorem setSp_dt (n : Fin 17) : (s.setSp n).dt = s.dt := rfl
@[simp] theorem setSp_st (n : Fin 17) : (s.setSp n).st = s.st := rfl
@[simp] theorem setSp_mem (n : Fin 17) : (s.setSp n).mem = s.mem := rfl
@[simp] theorem setSp_fb (n : Fin 17) : (s.setSp n).fb = s.fb := rfl
@[simp] theorem setSp_held (n : Fin 17) : (s.setSp n).held = s.held := rfl
@[simp] theorem setSp_latch (n : Fin 17) : (s.setSp n).latch = s.latch := rfl
@[simp] theorem setSp_status (n : Fin 17) : (s.setSp n).status = s.status := rfl
@[simp] theorem setSp_randomIn (n : Fin 17) : (s.setSp n).randomIn = s.randomIn := rfl
@[simp] theorem setSp_draws (n : Fin 17) : (s.setSp n).draws = s.draws := rfl

/-! ### `State.setSlot` -/

@[simp] theorem setSlot_v (k : Fin 16) (t : Word) : (s.setSlot k t).v = s.v := rfl
@[simp] theorem setSlot_i (k : Fin 16) (t : Word) : (s.setSlot k t).i = s.i := rfl
@[simp] theorem setSlot_pc (k : Fin 16) (t : Word) : (s.setSlot k t).pc = s.pc := rfl
@[simp] theorem setSlot_stack (k : Fin 16) (t : Word) : (s.setSlot k t).stack = s.stack.set k.val t k.isLt := rfl
@[simp] theorem setSlot_sp (k : Fin 16) (t : Word) : (s.setSlot k t).sp = s.sp := rfl
@[simp] theorem setSlot_dt (k : Fin 16) (t : Word) : (s.setSlot k t).dt = s.dt := rfl
@[simp] theorem setSlot_st (k : Fin 16) (t : Word) : (s.setSlot k t).st = s.st := rfl
@[simp] theorem setSlot_mem (k : Fin 16) (t : Word) : (s.setSlot k t).mem = s.mem := rfl
@[simp] theorem setSlot_fb (k : Fin 16) (t : Word) : (s.setSlot k t).fb = s.fb := rfl
@[simp] theorem setSlot_held (k : Fin 16) (t : Word) : (s.setSlot k t).held = s.held := rfl
@[simp] theorem setSlot_latch (k : Fin 16) (t : Word) : (s.setSlot k t).latch = s.latch := rfl
@[simp] theorem setSlot_status (k : Fin 16) (t : Word) : (s.setSlot k t).status = s.status := rfl
@[simp] theorem setSlot_randomIn (k : Fin 16) (t : Word) : (s.setSlot k t).randomIn = s.randomIn := rfl
@[simp] theorem setSlot_draws (k : Fin 16) (t : Word) : (s.setSlot k t).draws = s.draws := rfl

/-! ### `State.setRandom` -/

@[simp] theorem setRandom_v (bytes : List Byte) (n : Nat) : (s.setRandom bytes n).v = s.v := rfl
@[simp] theorem setRandom_i (bytes : List Byte) (n : Nat) : (s.setRandom bytes n).i = s.i := rfl
@[simp] theorem setRandom_pc (bytes : List Byte) (n : Nat) : (s.setRandom bytes n).pc = s.pc := rfl
@[simp] theorem setRandom_stack (bytes : List Byte) (n : Nat) : (s.setRandom bytes n).stack = s.stack := rfl
@[simp] theorem setRandom_sp (bytes : List Byte) (n : Nat) : (s.setRandom bytes n).sp = s.sp := rfl
@[simp] theorem setRandom_dt (bytes : List Byte) (n : Nat) : (s.setRandom bytes n).dt = s.dt := rfl
@[simp] theorem setRandom_st (bytes : List Byte) (n : Nat) : (s.setRandom bytes n).st = s.st := rfl
@[simp] theorem setRandom_mem (bytes : List Byte) (n : Nat) : (s.setRandom bytes n).mem = s.mem := rfl
@[simp] theorem setRandom_fb (bytes : List Byte) (n : Nat) : (s.setRandom bytes n).fb = s.fb := rfl
@[simp] theorem setRandom_held (bytes : List Byte) (n : Nat) : (s.setRandom bytes n).held = s.held := rfl
@[simp] theorem setRandom_latch (bytes : List Byte) (n : Nat) : (s.setRandom bytes n).latch = s.latch := rfl
@[simp] theorem setRandom_status (bytes : List Byte) (n : Nat) : (s.setRandom bytes n).status = s.status := rfl
@[simp] theorem setRandom_randomIn (bytes : List Byte) (n : Nat) : (s.setRandom bytes n).randomIn = bytes := rfl
@[simp] theorem setRandom_draws (bytes : List Byte) (n : Nat) : (s.setRandom bytes n).draws = n := rfl

/-! ### Reading a general register after an update -/

/-- A register reads back what was written to it, and no other register changes. -/
@[simp] theorem reg_setReg (x y : Nibble) (b : Byte) : (s.setReg x b).reg y = if y = x then b else s.reg y := by
  simp only [State.reg, setReg_v, Vector.getElem_set, ← BitVec.toNat_inj]
  split <;> split <;> simp_all
@[simp] theorem reg_setPc (t : Word) (y : Nibble) : (s.setPc t).reg y = s.reg y := rfl
@[simp] theorem reg_setIndex (a : Word) (y : Nibble) : (s.setIndex a).reg y = s.reg y := rfl
@[simp] theorem reg_setDelayTimer (b : Byte) (y : Nibble) : (s.setDelayTimer b).reg y = s.reg y := rfl
@[simp] theorem reg_setSoundTimer (b : Byte) (y : Nibble) : (s.setSoundTimer b).reg y = s.reg y := rfl
@[simp] theorem reg_setMem (m : Memory) (y : Nibble) : (s.setMem m).reg y = s.reg y := rfl
@[simp] theorem reg_setScreen (f : Screen) (y : Nibble) : (s.setScreen f).reg y = s.reg y := rfl
@[simp] theorem reg_setHeld (h : Vector Bool 16) (y : Nibble) : (s.setHeld h).reg y = s.reg y := rfl
@[simp] theorem reg_setLatch (k : Option Key) (y : Nibble) : (s.setLatch k).reg y = s.reg y := rfl
@[simp] theorem reg_setStatus (t : Status) (y : Nibble) : (s.setStatus t).reg y = s.reg y := rfl
@[simp] theorem reg_setSp (n : Fin 17) (y : Nibble) : (s.setSp n).reg y = s.reg y := rfl
@[simp] theorem reg_setSlot (k : Fin 16) (t : Word) (y : Nibble) : (s.setSlot k t).reg y = s.reg y := rfl
@[simp] theorem reg_setRandom (bytes : List Byte) (n : Nat) (y : Nibble) : (s.setRandom bytes n).reg y = s.reg y := rfl

/-! ### The advance of the program counter -/

@[simp] theorem advance_v : s.advance.v = s.v := rfl
@[simp] theorem advance_i : s.advance.i = s.i := rfl
@[simp] theorem advance_pc : s.advance.pc = s.pc + 2 := rfl
@[simp] theorem advance_stack : s.advance.stack = s.stack := rfl
@[simp] theorem advance_sp : s.advance.sp = s.sp := rfl
@[simp] theorem advance_dt : s.advance.dt = s.dt := rfl
@[simp] theorem advance_st : s.advance.st = s.st := rfl
@[simp] theorem advance_mem : s.advance.mem = s.mem := rfl
@[simp] theorem advance_fb : s.advance.fb = s.fb := rfl
@[simp] theorem advance_held : s.advance.held = s.held := rfl
@[simp] theorem advance_latch : s.advance.latch = s.latch := rfl
@[simp] theorem advance_status : s.advance.status = s.status := rfl
@[simp] theorem advance_randomIn : s.advance.randomIn = s.randomIn := rfl
@[simp] theorem advance_draws : s.advance.draws = s.draws := rfl
@[simp] theorem reg_advance (y : Nibble) : s.advance.reg y = s.reg y := rfl

/-- A skip moves `pc` by 4 when it is taken and by 2 when it is not. -/
@[simp] theorem advanceSkipping_pc (c : Bool) : (s.advanceSkipping c).pc = if c then s.pc + 4 else s.pc + 2 := by
  cases c <;> simp [State.advanceSkipping, BitVec.add_assoc]

/-- A skip changes nothing but `pc`. -/
theorem advanceSkipping_eq (c : Bool) : s.advanceSkipping c = s.setPc (s.advanceSkipping c).pc := by
  cases c <;> rfl

@[simp] theorem advanceSkipping_v (c : Bool) : (s.advanceSkipping c).v = s.v := by cases c <;> rfl
@[simp] theorem advanceSkipping_i (c : Bool) : (s.advanceSkipping c).i = s.i := by cases c <;> rfl
@[simp] theorem advanceSkipping_stack (c : Bool) : (s.advanceSkipping c).stack = s.stack := by cases c <;> rfl
@[simp] theorem advanceSkipping_sp (c : Bool) : (s.advanceSkipping c).sp = s.sp := by cases c <;> rfl
@[simp] theorem advanceSkipping_dt (c : Bool) : (s.advanceSkipping c).dt = s.dt := by cases c <;> rfl
@[simp] theorem advanceSkipping_st (c : Bool) : (s.advanceSkipping c).st = s.st := by cases c <;> rfl
@[simp] theorem advanceSkipping_mem (c : Bool) : (s.advanceSkipping c).mem = s.mem := by cases c <;> rfl
@[simp] theorem advanceSkipping_fb (c : Bool) : (s.advanceSkipping c).fb = s.fb := by cases c <;> rfl
@[simp] theorem advanceSkipping_held (c : Bool) : (s.advanceSkipping c).held = s.held := by cases c <;> rfl
@[simp] theorem advanceSkipping_latch (c : Bool) : (s.advanceSkipping c).latch = s.latch := by cases c <;> rfl
@[simp] theorem advanceSkipping_status (c : Bool) : (s.advanceSkipping c).status = s.status := by cases c <;> rfl
@[simp] theorem advanceSkipping_randomIn (c : Bool) : (s.advanceSkipping c).randomIn = s.randomIn := by cases c <;> rfl
@[simp] theorem advanceSkipping_draws (c : Bool) : (s.advanceSkipping c).draws = s.draws := by cases c <;> rfl
@[simp] theorem reg_advanceSkipping (c : Bool) (y : Nibble) : (s.advanceSkipping c).reg y = s.reg y := by cases c <;> rfl

/-! ### The flag register -/

@[simp] theorem setFlag_i (c : Bool) : (s.setFlag c).i = s.i := rfl
@[simp] theorem setFlag_pc (c : Bool) : (s.setFlag c).pc = s.pc := rfl
@[simp] theorem setFlag_stack (c : Bool) : (s.setFlag c).stack = s.stack := rfl
@[simp] theorem setFlag_sp (c : Bool) : (s.setFlag c).sp = s.sp := rfl
@[simp] theorem setFlag_dt (c : Bool) : (s.setFlag c).dt = s.dt := rfl
@[simp] theorem setFlag_st (c : Bool) : (s.setFlag c).st = s.st := rfl
@[simp] theorem setFlag_mem (c : Bool) : (s.setFlag c).mem = s.mem := rfl
@[simp] theorem setFlag_fb (c : Bool) : (s.setFlag c).fb = s.fb := rfl
@[simp] theorem setFlag_held (c : Bool) : (s.setFlag c).held = s.held := rfl
@[simp] theorem setFlag_latch (c : Bool) : (s.setFlag c).latch = s.latch := rfl
@[simp] theorem setFlag_status (c : Bool) : (s.setFlag c).status = s.status := rfl
@[simp] theorem setFlag_randomIn (c : Bool) : (s.setFlag c).randomIn = s.randomIn := rfl
@[simp] theorem setFlag_draws (c : Bool) : (s.setFlag c).draws = s.draws := rfl
/-- Writing the flag changes `VF` alone. -/
@[simp] theorem reg_setFlag (c : Bool) (y : Nibble) :
    (s.setFlag c).reg y = if y = flagReg then flagByte c else s.reg y := by
  simp [State.setFlag]

end Sys2Proof.Machine
end

