-- ==== Sys2Proof/Laws/Ops.lean ====
section
/-! SUPPORT. For each shared operation, once, everything it can do: how a step ends, the checks, the transfers, the stack,
the screen, the keypad and the timers. -/

namespace Sys2Proof.Machine

/-! ### How a step ends -/

/-- A checked operation ends in a next state in one of two ways: the check failed and the condition is taken, or it went
on. -/
theorem attempt_eq_next {α : Type} {s t : State} {r : Except Fault α} {k : α → Result} :
    attempt s r k = .next t ↔
      (∃ e, r = .error e ∧ t = s.setStatus (.faulted e)) ∨ ∃ a, r = .ok a ∧ k a = .next t := by
  cases r with
  | error e => simp [attempt, raise, eq_comm]
  | ok a => simp [attempt]

@[simp] theorem attempt_ok {α : Type} {s : State} {a : α} {k : α → Result} : attempt s (.ok a) k = k a := rfl

@[simp] theorem attempt_error {α : Type} {s : State} {e : Fault} {k : α → Result} :
    attempt s (.error e) k = .next (s.setStatus (.faulted e)) := rfl

@[simp] theorem complete_eq_next {s t : State} : complete s = .next t ↔ s = t := by simp [complete]

@[simp] theorem retry_eq_next {s t : State} : retry s = .next t ↔ s = t := by simp [retry]

@[simp] theorem raise_eq_next {e : Fault} {s t : State} : raise e s = .next t ↔ s.setStatus (.faulted e) = t := by
  simp [raise]

/-- Nothing that goes on to a next state faults or refuses. -/
theorem attempt_next {α : Type} (s : State) (r : Except Fault α) {k : α → Result} (h : ∀ a, ∃ t, k a = .next t) :
    ∃ t, attempt s r k = .next t := by
  cases r with
  | error e => exact ⟨_, rfl⟩
  | ok a => exact h a

/-! ### Checks -/

theorem checkRead_eq_ok {a : Nat} : checkRead a = .ok () ↔ a < 4096 := by
  simp [checkRead]

theorem checkRead_eq_error {a : Nat} {e : Fault} : checkRead a = .error e ↔ 4096 ≤ a ∧ e = .addressOutOfRange a := by
  unfold checkRead
  split <;> simp_all [eq_comm]

theorem checkWrite_eq_ok {a : Nat} : checkWrite a = .ok () ↔ 80 ≤ a ∧ a < 4096 := by
  simp only [checkWrite, Config.memSize, Config.fontSize]
  split
  · simp; omega
  · split
    · simp; omega
    · simp; omega

theorem checkWrite_eq_error {a : Nat} {e : Fault} :
    checkWrite a = .error e ↔
      (4096 ≤ a ∧ e = .addressOutOfRange a) ∨ (a < 80 ∧ e = .readOnlyWrite a) := by
  simp only [checkWrite, Config.memSize, Config.fontSize]
  split
  · have : ¬a < 80 := by omega
    simp_all [eq_comm]
  · split <;> simp_all [eq_comm]

/-- A check of several addresses passes when each passes. -/
theorem checkEach_eq_ok {f : Nat → Except Fault Unit} {a n : Nat} :
    checkEach f a n = .ok () ↔ ∀ k, k < n → f (a + k) = .ok () := by
  induction n generalizing a with
  | zero => simp [checkEach]
  | succ n ih =>
    simp only [checkEach]
    constructor
    · intro h k hk
      split at h
      · cases h
      · cases k with
        | zero => simpa using ‹f a = .ok ()›
        | succ k =>
          have := ih.1 h k (by omega)
          rwa [Nat.add_assoc, Nat.add_comm 1 k] at this
    · intro h
      have h0 := h 0 (by omega)
      simp only [Nat.add_zero] at h0
      rw [h0]
      refine ih.2 fun k hk => ?_
      have := h (k + 1) (by omega)
      rwa [Nat.add_comm k 1, ← Nat.add_assoc] at this

/-- A check of several addresses fails with the first that fails, in ascending order (60_exceptions.md R273). -/
theorem checkEach_eq_error {f : Nat → Except Fault Unit} {a n : Nat} {e : Fault} :
    checkEach f a n = .error e ↔
      ∃ k, k < n ∧ f (a + k) = .error e ∧ ∀ j, j < k → f (a + j) = .ok () := by
  induction n generalizing a with
  | zero => simp [checkEach]
  | succ n ih =>
    simp only [checkEach]
    constructor
    · intro h
      split at h
      · rename_i he
        exact ⟨0, by omega, by rw [Nat.add_zero, he]; exact h, by simp⟩
      · obtain ⟨k, hk, he, hj⟩ := ih.1 h
        refine ⟨k + 1, by omega, by rwa [Nat.add_comm k 1, ← Nat.add_assoc], fun j hjk => ?_⟩
        cases j with
        | zero => rw [Nat.add_zero]; assumption
        | succ j =>
          have := hj j (by omega)
          rwa [Nat.add_assoc, Nat.add_comm 1 j] at this
    · rintro ⟨k, hk, he, hj⟩
      cases k with
      | zero => rw [Nat.add_zero] at he; rw [he]
      | succ k =>
        have h0 := hj 0 (by omega)
        rw [Nat.add_zero] at h0
        rw [h0]
        refine ih.2 ⟨k, by omega, by rwa [Nat.add_assoc, Nat.add_comm 1 k], fun j hjk => ?_⟩
        have := hj (j + 1) (by omega)
        rwa [Nat.add_comm j 1, ← Nat.add_assoc] at this

/-! ### Transfers -/

/-- A store of several bytes passes its checks exactly when they all lie in writable memory, and then it writes them. -/
theorem memWriteBytes_eq_ok {m m' : Memory} {a : Nat} {bytes : List Byte} :
    memWriteBytes m a bytes = .ok m' ↔
      (∀ k, k < bytes.length → 80 ≤ a + k ∧ a + k < 4096) ∧ m' = m.writeBytes a bytes := by
  unfold memWriteBytes
  split
  · rename_i e he
    simp only [reduceCtorEq, false_iff, not_and]
    intro h
    have := checkEach_eq_ok.2 fun k hk => checkWrite_eq_ok.2 (h k hk)
    rw [he] at this
    cases this
  · rename_i he
    simp only [Except.ok.injEq, eq_comm (a := m'), iff_and_self]
    exact fun _ k hk => checkWrite_eq_ok.1 (checkEach_eq_ok.1 he k hk)

/-- A store of several bytes fails with the first address, in ascending order, that it may not write. -/
theorem memWriteBytes_eq_error {m : Memory} {a : Nat} {bytes : List Byte} {e : Fault} :
    memWriteBytes m a bytes = .error e ↔
      ∃ k, k < bytes.length ∧ checkWrite (a + k) = .error e ∧ ∀ j, j < k → 80 ≤ a + j ∧ a + j < 4096 := by
  have h : memWriteBytes m a bytes = .error e ↔ checkEach checkWrite a bytes.length = .error e := by
    unfold memWriteBytes
    split <;> simp_all
  rw [h, checkEach_eq_error]
  simp only [checkWrite_eq_ok]

/-- A read of several bytes passes its checks exactly when they all exist, and then it answers them. -/
theorem memReadBytes_eq_ok {m : Memory} {a n : Nat} {bytes : List Byte} :
    memReadBytes m a n = .ok bytes ↔ (∀ k, k < n → a + k < 4096) ∧ bytes = m.bytesFrom a n := by
  unfold memReadBytes
  split
  · rename_i e he
    simp only [reduceCtorEq, false_iff, not_and]
    intro h
    have := checkEach_eq_ok.2 fun k hk => checkRead_eq_ok.2 (h k hk)
    rw [he] at this
    cases this
  · rename_i he
    simp only [Except.ok.injEq, eq_comm (a := bytes), iff_and_self]
    exact fun _ k hk => checkRead_eq_ok.1 (checkEach_eq_ok.1 he k hk)

/-- A read of several bytes fails with the first address, in ascending order, that does not exist. -/
theorem memReadBytes_eq_error {m : Memory} {a n : Nat} {e : Fault} :
    memReadBytes m a n = .error e ↔
      ∃ k, k < n ∧ (4096 ≤ a + k ∧ e = .addressOutOfRange (a + k)) ∧ ∀ j, j < k → a + j < 4096 := by
  have h : memReadBytes m a n = .error e ↔ checkEach checkRead a n = .error e := by
    unfold memReadBytes
    split <;> simp_all
  rw [h, checkEach_eq_error]
  simp only [checkRead_eq_ok, checkRead_eq_error]

/-- A halfword is read when both its bytes exist (20_memory.md R84). -/
theorem memReadHalfword_eq_ok {m : Memory} {a : Nat} {w : Word} :
    memReadHalfword m a = .ok w ↔ a + 1 < 4096 ∧ w = wordOfBytes (m.byteAt a) (m.byteAt (a + 1)) := by
  by_cases h : 4096 ≤ a
  · have : ¬a + 1 < 4096 := by omega
    simp [memReadHalfword, memRead, checkRead, h, this]
  · by_cases h' : 4096 ≤ a + 1
    · simp [memReadHalfword, memRead, checkRead, h, h', Nat.not_lt.2 h']
    · simp [memReadHalfword, memRead, checkRead, h, h', Nat.not_le.1 h', eq_comm]

/-- A halfword read fails with the first of its addresses that does not exist (20_memory.md R84). -/
theorem memReadHalfword_eq_error {m : Memory} {a : Nat} {e : Fault} :
    memReadHalfword m a = .error e ↔
      (4096 ≤ a ∧ e = .addressOutOfRange a) ∨ (a + 1 = 4096 ∧ e = .addressOutOfRange 4096) := by
  by_cases h : 4096 ≤ a
  · have : ¬a + 1 = 4096 := by omega
    simp [memReadHalfword, memRead, checkRead, h, this, eq_comm]
  · by_cases h' : 4096 ≤ a + 1
    · have : a = 4095 := by omega
      subst this
      simp [memReadHalfword, memRead, checkRead, Config.memSize, eq_comm]
    · have : ¬a + 1 = 4096 := by omega
      simp [memReadHalfword, memRead, checkRead, h, h', this]

/-- Loading registers from `V[k]` on writes those and no other. -/
theorem reg_loadRegs {s : State} {k : Nat} {bytes : List Byte} (hk : k + bytes.length ≤ 16) (r : Nibble) :
    (s.loadRegs k bytes).reg r =
      if h : k ≤ r.toNat ∧ r.toNat < k + bytes.length then bytes[r.toNat - k] else s.reg r := by
  induction bytes generalizing s k with
  | nil => rw [State.loadRegs, dif_neg (by simp)]
  | cons b rest ih =>
    simp only [List.length_cons] at hk
    have hr := r.isLt
    rw [State.loadRegs, ih (by omega), if_pos (by omega)]
    by_cases h1 : k + 1 ≤ r.toNat ∧ r.toNat < k + 1 + rest.length
    · rw [dif_pos h1, dif_pos (by simp; omega)]
      rw [List.getElem_cons, dif_neg (by omega)]
      congr 1
    · rw [dif_neg h1, reg_setReg]
      by_cases h2 : r.toNat = k
      · have : r = BitVec.ofNat 4 k := by apply BitVec.eq_of_toNat_eq; simp; omega
        rw [if_pos this, dif_pos (by simp; omega)]
        simp [h2]
      · have : r ≠ BitVec.ofNat 4 k := by
          intro h
          apply h2
          rw [h]
          simp
          omega
        rw [if_neg this, dif_neg (by simp only [List.length_cons]; omega)]

/-- Loading registers changes the register file alone. -/
theorem loadRegs_eq (s : State) (k : Nat) (bytes : List Byte) : ∃ v, s.loadRegs k bytes = { s with v := v } := by
  induction bytes generalizing s k with
  | nil => exact ⟨s.v, rfl⟩
  | cons b rest ih =>
    rw [State.loadRegs]
    split
    · obtain ⟨v, hv⟩ := ih (s.setReg (BitVec.ofNat 4 k) b) (k + 1)
      exact ⟨v, by rw [hv]; rfl⟩
    · exact ih s (k + 1)

/-- The registers a dump stores, by number. -/
theorem length_regsUpTo (s : State) (x : Nibble) : (s.regsUpTo x).length = x.toNat + 1 := by
  have := x.isLt
  simp [State.regsUpTo, regCount]
  omega

theorem getElem_regsUpTo {s : State} {x r : Nibble} (h : r ≤ x) :
    (s.regsUpTo x)[r.toNat]'(by rw [length_regsUpTo]; exact Nat.lt_succ_of_le h) = s.reg r := by
  simp [State.regsUpTo, State.reg]

/-! ### The call stack -/

/-- A push has room, or overflows (10_state.md R39). -/
theorem push_eq_ok {s s' : State} {t : Word} :
    push s t = .ok s' ↔
      ∃ h : s.sp.val < 16, s' = (s.setSlot ⟨s.sp.val, h⟩ t).setSp ⟨s.sp.val + 1, by omega⟩ := by
  unfold push
  split <;> simp_all [eq_comm]

theorem push_eq_error {s : State} {t : Word} {e : Fault} :
    push s t = .error e ↔ s.sp.val = 16 ∧ e = .stackOverflow := by
  have := s.sp.isLt
  unfold push
  split
  · simp; omega
  · simp [eq_comm]; omega

/-- A pop has an entry, or underflows (10_state.md R39). -/
theorem pop_eq_ok {s s' : State} {t : Word} :
    pop s = .ok (t, s') ↔
      ∃ _ : s.sp.val ≠ 0, t = s.stack[s.sp.val - 1]'(by have := s.sp.isLt; omega) ∧
        s' = s.setSp ⟨s.sp.val - 1, by have := s.sp.isLt; omega⟩ := by
  unfold pop
  split <;> simp_all [eq_comm]

theorem pop_eq_error {s : State} {e : Fault} : pop s = .error e ↔ s.sp.val = 0 ∧ e = .stackUnderflow := by
  unfold pop
  split <;> simp_all [eq_comm]

/-! ### Key and digit operands -/

theorem keyOperand_eq_ok {b : Byte} {k : Key} : keyOperand b = .ok k ↔ b.toNat = k.val := by
  unfold keyOperand asHexDigit
  split
  · rename_i h
    split at h <;> simp_all [Fin.ext_iff]
  · rename_i h
    have := k.isLt
    split at h <;> simp_all
    omega

theorem keyOperand_eq_error {b : Byte} {e : Fault} : keyOperand b = .error e ↔ 16 ≤ b.toNat ∧ e = .invalidKey b := by
  unfold keyOperand asHexDigit
  split
  · rename_i h
    split at h <;> simp_all
  · rename_i h
    split at h <;> simp_all [eq_comm]

theorem digitOperand_eq_ok {b d : Byte} : digitOperand b = .ok d ↔ b.toNat < 16 ∧ d = b := by
  unfold digitOperand asHexDigit
  split
  · rename_i h
    split at h <;> simp_all [eq_comm]
  · rename_i h
    split at h <;> simp_all

theorem digitOperand_eq_error {b : Byte} {e : Fault} :
    digitOperand b = .error e ↔ 16 ≤ b.toNat ∧ e = .invalidFontDigit b := by
  unfold digitOperand asHexDigit
  split
  · rename_i h
    split at h <;> simp_all
  · rename_i h
    split at h <;> simp_all [eq_comm]

/-! ### Timers -/

/-- A timer decays by at most 255 and never below 0 (43_io_timers.md R249). -/
theorem toNat_decayTimer (t : Byte) (n : Nat) : (decayTimer t n).toNat = t.toNat - min n 255 := by
  have := t.isLt
  simp [decayTimer]
  omega

end Sys2Proof.Machine
end

