-- ==== Sys2Proof/Laws/PerInstr.lean ====
section
/-! SUPPORT. A family of statements about every instruction as syntax: its word has the leading nibble of its row of
30_encoding.md R125. -/

namespace Sys2Proof.Laws.LeadingNibble

/-- The leading nibble of a row's pattern (30_encoding.md R125). -/
def rowNibble (row : Nat) : Nibble :=
  match opcodeTable[row - 1]? with
  | some r => nibbleA r.pattern
  | none => 0

/-- The word of a well-formed instruction has its row's leading nibble, which the decoder looks at first
(30_encoding.md R123). -/
def Statement (i : Instr) : Prop := i.wf = true → nibbleA (encode i) = rowNibble i.row

theorem clearScreen : Statement .clearScreen := fun _ => by decide

theorem ret : Statement .ret := fun _ => by decide

theorem sysAddr (nnn : Addr12) : Statement (.sysAddr nnn) := fun _ => nibbleA_wordNNN (a := 0x0) (by decide) nnn

theorem jump (nnn : Addr12) : Statement (.jump nnn) := fun _ => nibbleA_wordNNN (a := 0x1) (by decide) nnn

theorem call (nnn : Addr12) : Statement (.call nnn) := fun _ => nibbleA_wordNNN (a := 0x2) (by decide) nnn

theorem skipEqByte (x : Nibble) (kk : Byte) : Statement (.skipEqByte x kk) := fun _ => nibbleA_wordXKK (a := 0x3) (by decide) x kk

theorem skipNeByte (x : Nibble) (kk : Byte) : Statement (.skipNeByte x kk) := fun _ => nibbleA_wordXKK (a := 0x4) (by decide) x kk

theorem skipEqReg (x : Nibble) (y : Nibble) : Statement (.skipEqReg x y) := fun _ => nibbleA_wordXYN (a := 0x5) (by decide) x y 0x0

theorem loadByte (x : Nibble) (kk : Byte) : Statement (.loadByte x kk) := fun _ => nibbleA_wordXKK (a := 0x6) (by decide) x kk

theorem addByte (x : Nibble) (kk : Byte) : Statement (.addByte x kk) := fun _ => nibbleA_wordXKK (a := 0x7) (by decide) x kk

theorem loadReg (x : Nibble) (y : Nibble) : Statement (.loadReg x y) := fun _ => nibbleA_wordXYN (a := 0x8) (by decide) x y 0x0

theorem orReg (x : Nibble) (y : Nibble) : Statement (.orReg x y) := fun _ => nibbleA_wordXYN (a := 0x8) (by decide) x y 0x1

theorem andReg (x : Nibble) (y : Nibble) : Statement (.andReg x y) := fun _ => nibbleA_wordXYN (a := 0x8) (by decide) x y 0x2

theorem xorReg (x : Nibble) (y : Nibble) : Statement (.xorReg x y) := fun _ => nibbleA_wordXYN (a := 0x8) (by decide) x y 0x3

theorem mathAdd (x : Nibble) (y : Nibble) : Statement (.mathAdd x y) := fun _ => nibbleA_wordXYN (a := 0x8) (by decide) x y 0x4

theorem mathSub (x : Nibble) (y : Nibble) : Statement (.mathSub x y) := fun _ => nibbleA_wordXYN (a := 0x8) (by decide) x y 0x5

theorem shiftRight (x : Nibble) (y : Nibble) : Statement (.shiftRight x y) := fun _ => nibbleA_wordXYN (a := 0x8) (by decide) x y 0x6

theorem mathSubN (x : Nibble) (y : Nibble) : Statement (.mathSubN x y) := fun _ => nibbleA_wordXYN (a := 0x8) (by decide) x y 0x7

theorem shiftLeft (x : Nibble) (y : Nibble) : Statement (.shiftLeft x y) := fun _ => nibbleA_wordXYN (a := 0x8) (by decide) x y 0xE

theorem skipNeReg (x : Nibble) (y : Nibble) : Statement (.skipNeReg x y) := fun _ => nibbleA_wordXYN (a := 0x9) (by decide) x y 0x0

theorem loadIndex (nnn : Addr12) : Statement (.loadIndex nnn) := fun _ => nibbleA_wordNNN (a := 0xA) (by decide) nnn

theorem jumpV0 (nnn : Addr12) : Statement (.jumpV0 nnn) := fun _ => nibbleA_wordNNN (a := 0xB) (by decide) nnn

theorem rand (x : Nibble) (kk : Byte) : Statement (.rand x kk) := fun _ => nibbleA_wordXKK (a := 0xC) (by decide) x kk

theorem draw (x : Nibble) (y : Nibble) (n : Nibble) : Statement (.draw x y n) := fun _ => nibbleA_wordXYN (a := 0xD) (by decide) x y n

theorem skipKeyPressed (x : Nibble) : Statement (.skipKeyPressed x) := fun _ => nibbleA_wordXKK (a := 0xE) (by decide) x 0x9E

theorem skipKeyNotPressed (x : Nibble) : Statement (.skipKeyNotPressed x) := fun _ => nibbleA_wordXKK (a := 0xE) (by decide) x 0xA1

theorem loadDelay (x : Nibble) : Statement (.loadDelay x) := fun _ => nibbleA_wordXKK (a := 0xF) (by decide) x 0x07

theorem keyGet (x : Nibble) : Statement (.keyGet x) := fun _ => nibbleA_wordXKK (a := 0xF) (by decide) x 0x0A

theorem setDelay (x : Nibble) : Statement (.setDelay x) := fun _ => nibbleA_wordXKK (a := 0xF) (by decide) x 0x15

theorem setSound (x : Nibble) : Statement (.setSound x) := fun _ => nibbleA_wordXKK (a := 0xF) (by decide) x 0x18

theorem addIndex (x : Nibble) : Statement (.addIndex x) := fun _ => nibbleA_wordXKK (a := 0xF) (by decide) x 0x1E

theorem fontGlyph (x : Nibble) : Statement (.fontGlyph x) := fun _ => nibbleA_wordXKK (a := 0xF) (by decide) x 0x29

theorem bcd (x : Nibble) : Statement (.bcd x) := fun _ => nibbleA_wordXKK (a := 0xF) (by decide) x 0x33

theorem regDump (x : Nibble) : Statement (.regDump x) := fun _ => nibbleA_wordXKK (a := 0xF) (by decide) x 0x55

theorem regLoad (x : Nibble) : Statement (.regLoad x) := fun _ => nibbleA_wordXKK (a := 0xF) (by decide) x 0x65

end Sys2Proof.Laws.LeadingNibble
end

