-- ==== Sys2Proof/Laws/Screen.lean ====
section
/-! SUPPORT. The laws of the screen: reading a cell after a write, and what one draw does to every cell and to the
collision, in closed form (20_memory.md R90, R91). -/

namespace Sys2Proof.Machine

/-- A cell reads back what was written to it, and no other cell changes. -/
@[simp] theorem cell_setCell (f : Screen) (x px : Fin 64) (y py : Fin 32) (b : Bool) :
    (f.setCell x y b).cell px py = if px = x ∧ py = y then b else f.cell px py := by
  simp only [Screen.cell, Screen.setCell, Vector.getElem_set, Fin.ext_iff]
  by_cases hy : y.val = py.val
  · by_cases hx : x.val = px.val
    · simp [hx, hy]
    · have : ¬px.val = x.val := fun h => hx h.symm
      simp [hx, hy, this]
  · have : ¬py.val = y.val := fun h => hy h.symm
    simp [hy, this]

/-- Screens with equal cells are equal. -/
theorem Screen.ext_cell {f g : Screen} (h : ∀ x y, f.cell x y = g.cell x y) : f = g := by
  apply Vector.ext
  intro y hy
  apply Vector.ext
  intro x hx
  exact h ⟨x, hx⟩ ⟨y, hy⟩

/-- A dark screen is dark everywhere. -/
@[simp] theorem cell_blank (x : Fin 64) (y : Fin 32) : Screen.blank.cell x y = false := by
  simp [Screen.cell, Screen.blank]

/-- Eight neighbouring columns stay apart when they wrap (20_memory.md R91). -/
theorem wrapX_inj {x c d : Nat} (hc : c < 8) (hd : d < 8) (h : wrapX (x + c) = wrapX (x + d)) : c = d := by
  simp only [wrapX, Fin.mk.injEq] at h
  omega

/-- Fewer than 32 neighbouring rows stay apart when they wrap (20_memory.md R91). -/
theorem wrapY_inj {y c d : Nat} (hc : c < 32) (hd : d < 32) (h : wrapY (y + c) = wrapY (y + d)) : c = d := by
  simp only [wrapY, Fin.mk.injEq] at h
  omega

/-- Some columns of one sprite row: each cell with a sprite bit is inverted once, and a collision is a set cell among
them. -/
theorem foldl_columns (b : Byte) (x y : Nat) (cols : List Nat) (hd : cols.Nodup) (h8 : ∀ c ∈ cols, c < 8)
    (p : Screen × Bool) :
    let q := cols.foldl (fun q col => if b.getLsbD (7 - col) then drawPixel q (wrapX (x + col)) (wrapY y) else q) p
    (∀ px py, q.1.cell px py = true ↔
      (p.1.cell px py = true ↔ ¬∃ c ∈ cols, b.getLsbD (7 - c) = true ∧ px = wrapX (x + c) ∧ py = wrapY y)) ∧
    (q.2 = true ↔ p.2 = true ∨ ∃ c ∈ cols, b.getLsbD (7 - c) = true ∧ p.1.cell (wrapX (x + c)) (wrapY y) = true) := by
  induction cols generalizing p with
  | nil => simp
  | cons c rest ih =>
    rw [List.nodup_cons] at hd
    have hc : c < 8 := h8 c (by simp)
    have hrest : ∀ d ∈ rest, d < 8 := fun d h => h8 d (by simp [h])
    have hne : ∀ d ∈ rest, wrapX (x + d) ≠ wrapX (x + c) := fun d h he => hd.1 (wrapX_inj (hrest d h) hc he ▸ h)
    simp only [List.foldl_cons]
    by_cases hb : b.getLsbD (7 - c) = true
    · rw [if_pos hb]
      obtain ⟨h1, h2⟩ := ih hd.2 hrest (drawPixel p (wrapX (x + c)) (wrapY y))
      constructor
      · intro px py
        rw [h1]
        by_cases hp : px = wrapX (x + c) ∧ py = wrapY y
        · obtain ⟨rfl, rfl⟩ := hp
          have hno : ¬∃ d ∈ rest, b.getLsbD (7 - d) = true ∧ wrapX (x + c) = wrapX (x + d) ∧ wrapY y = wrapY y := by
            rintro ⟨d, hdr, -, he, -⟩
            exact hne d hdr he.symm
          have hyes : ∃ d ∈ c :: rest, b.getLsbD (7 - d) = true ∧ wrapX (x + c) = wrapX (x + d) ∧ wrapY y = wrapY y :=
            ⟨c, by simp, hb, rfl, rfl⟩
          have hflip : (drawPixel p (wrapX (x + c)) (wrapY y)).1.cell (wrapX (x + c)) (wrapY y) =
              !p.1.cell (wrapX (x + c)) (wrapY y) := by simp [drawPixel]
          rw [hflip, eq_false hno, eq_true hyes]
          cases p.1.cell (wrapX (x + c)) (wrapY y) <;> simp
        · simp only [drawPixel, cell_setCell, if_neg hp, List.mem_cons, exists_eq_or_imp]
          simp only [hb, true_and, hp, false_or]
      · rw [h2]
        have hc : ∀ d ∈ rest, (drawPixel p (wrapX (x + c)) (wrapY y)).1.cell (wrapX (x + d)) (wrapY y) =
            p.1.cell (wrapX (x + d)) (wrapY y) := fun d h => by simp [drawPixel, hne d h]
        have hsw : (∃ d ∈ rest, b.getLsbD (7 - d) = true ∧
              (drawPixel p (wrapX (x + c)) (wrapY y)).1.cell (wrapX (x + d)) (wrapY y) = true) ↔
            ∃ d ∈ rest, b.getLsbD (7 - d) = true ∧ p.1.cell (wrapX (x + d)) (wrapY y) = true := by
          constructor <;> rintro ⟨d, h, h1, h2⟩
          · exact ⟨d, h, h1, hc d h ▸ h2⟩
          · exact ⟨d, h, h1, (hc d h).symm ▸ h2⟩
        rw [hsw]
        simp only [drawPixel, Bool.or_eq_true, List.mem_cons, exists_eq_or_imp, hb, true_and, or_assoc]
    · rw [if_neg hb]
      obtain ⟨h1, h2⟩ := ih hd.2 hrest p
      constructor
      · intro px py
        rw [h1]
        simp [hb]
      · rw [h2]
        simp [hb]

/-- One sprite row. -/
theorem drawRow_spec (p : Screen × Bool) (b : Byte) (x y : Nat) :
    (∀ px py, (drawRow p b x y).1.cell px py = true ↔
      (p.1.cell px py = true ↔ ¬∃ c, c < 8 ∧ b.getLsbD (7 - c) = true ∧ px = wrapX (x + c) ∧ py = wrapY y)) ∧
    ((drawRow p b x y).2 = true ↔
      p.2 = true ∨ ∃ c, c < 8 ∧ b.getLsbD (7 - c) = true ∧ p.1.cell (wrapX (x + c)) (wrapY y) = true) := by
  have h := foldl_columns b x y (List.range 8) List.nodup_range (fun c hc => List.mem_range.1 hc) p
  simpa only [drawRow, List.mem_range] using h

/-- A sprite has a 1 bit on a cell, its rows given as bytes. -/
def SpriteOn (sprite : List Byte) (x y : Nat) (px : Fin 64) (py : Fin 32) : Prop :=
  ∃ row, ∃ h : row < sprite.length, ∃ col, col < 8 ∧ (sprite[row]).getLsbD (7 - col) = true ∧
    px = wrapX (x + col) ∧ py = wrapY (y + row)

/-- Two inversions that never meet are one. -/
theorem iff_not_or_of_disjoint {p a b : Prop} (h : a → ¬b) : ((p ↔ ¬a) ↔ ¬b) ↔ (p ↔ ¬(a ∨ b)) := by
  by_cases p <;> by_cases a <;> by_cases b <;> simp_all

/-- The first row, or one further down. -/
theorem spriteOn_cons {b : Byte} {rest : List Byte} {x y : Nat} {px : Fin 64} {py : Fin 32} :
    SpriteOn (b :: rest) x y px py ↔
      (∃ c, c < 8 ∧ b.getLsbD (7 - c) = true ∧ px = wrapX (x + c) ∧ py = wrapY y) ∨ SpriteOn rest x (y + 1) px py := by
  constructor
  · rintro ⟨row, h, col, hc, hb, hx, hy⟩
    cases row with
    | zero => exact .inl ⟨col, hc, by simpa using hb, hx, by simpa using hy⟩
    | succ row =>
      refine .inr ⟨row, by simpa using h, col, hc, by simpa using hb, hx, ?_⟩
      rw [hy]
      congr 1
      omega
  · rintro (⟨col, hc, hb, hx, hy⟩ | ⟨row, h, col, hc, hb, hx, hy⟩)
    · exact ⟨0, by simp, col, hc, by simpa using hb, hx, by simpa using hy⟩
    · refine ⟨row + 1, by simpa using h, col, hc, by simpa using hb, hx, ?_⟩
      rw [hy]
      congr 1
      omega

/-- A draw of up to 32 rows inverts exactly the cells the sprite is on, and collides exactly when one of them was set
(20_memory.md R90). -/
theorem drawRows_spec (sprite : List Byte) (p : Screen × Bool) (x y : Nat) (h : sprite.length ≤ 32) :
    (∀ px py, (drawRows p x y sprite).1.cell px py = true ↔ (p.1.cell px py = true ↔ ¬SpriteOn sprite x y px py)) ∧
    ((drawRows p x y sprite).2 = true ↔
      p.2 = true ∨ ∃ px py, SpriteOn sprite x y px py ∧ p.1.cell px py = true) := by
  induction sprite generalizing p y with
  | nil => simp [drawRows, SpriteOn]
  | cons b rest ih =>
    simp only [List.length_cons] at h
    have hr := drawRow_spec p b x y
    obtain ⟨h1, h2⟩ := ih (drawRow p b x y) (y + 1) (by omega)
    have hdis : ∀ px py, (∃ c, c < 8 ∧ b.getLsbD (7 - c) = true ∧ px = wrapX (x + c) ∧ py = wrapY y) →
        ¬SpriteOn rest x (y + 1) px py := by
      rintro px py ⟨-, -, -, -, hy⟩ ⟨row, hrow, -, -, -, -, hy'⟩
      have : wrapY (y + 0) = wrapY (y + (1 + row)) := by rw [Nat.add_zero, ← hy, hy', Nat.add_assoc]
      have := wrapY_inj (by omega) (by omega) this
      omega
    simp only [drawRows, spriteOn_cons]
    constructor
    · intro px py
      rw [h1, hr.1]
      exact iff_not_or_of_disjoint (hdis px py)
    · rw [h2, hr.2]
      constructor
      · rintro ((hp | ⟨c, hc, hb, hcell⟩) | ⟨px, py, hs, hcell⟩)
        · exact .inl hp
        · exact .inr ⟨_, _, .inl ⟨c, hc, hb, rfl, rfl⟩, hcell⟩
        · exact .inr ⟨px, py, .inr hs, ((hr.1 px py).1 hcell).2 fun ha => hdis px py ha hs⟩
      · rintro (hp | ⟨px, py, ⟨c, hc, hb, rfl, rfl⟩ | hs, hcell⟩)
        · exact .inl (.inl hp)
        · exact .inl (.inr ⟨c, hc, hb, hcell⟩)
        · exact .inr ⟨px, py, hs, (hr.1 px py).2 (iff_of_true hcell fun ha => hdis px py ha hs)⟩

end Sys2Proof.Machine
end

