-- ==== Sys2Proof/Laws/Step.lean ====
section
/-! SUPPORT. What a step can do, once: the fetch, the decode and the meaning (40_control_flow.md R150), and what one draw
does. -/

namespace Sys2Proof.Machine

/-- A fetch answers the big-endian word at `pc` when both its bytes exist. -/
theorem fetch_eq_ok {s : State} {w : Word} :
    fetch s = .ok w ↔
      s.pc.toNat + 1 < 4096 ∧ w = wordOfBytes (s.mem.byteAt s.pc.toNat) (s.mem.byteAt (s.pc.toNat + 1)) :=
  memReadHalfword_eq_ok

/-- A fetch fails at `pc`, or at `pc + 1` (20_memory.md R84). -/
theorem fetch_eq_error {s : State} {e : Fault} :
    fetch s = .error e ↔
      (4096 ≤ s.pc.toNat ∧ e = .addressOutOfRange s.pc.toNat) ∨
        (s.pc.toNat + 1 = 4096 ∧ e = .addressOutOfRange 4096) :=
  memReadHalfword_eq_error

/-- A running core that can fetch and decode runs the instruction. -/
theorem step_of_decode {s : State} {w : Word} {i : Instr} (hs : s.status = .running) (hf : fetch s = .ok w)
    (hd : decode w = .ok i) : step s = exec i s := by
  simp only [step, hs, hf, attempt_ok, hd]

/-- A faulted core reports its condition. -/
theorem step_of_faulted {s : State} {e : Fault} (hs : s.status = .faulted e) : step s = .fault e := by
  simp only [step, hs]

/-- A step answers a next state in one of three ways: the fetch failed, the word is unrecognized, or the instruction ran. -/
theorem step_eq_next {s t : State} :
    step s = .next t ↔
      s.status = .running ∧
        ((∃ e, fetch s = .error e ∧ t = s.setStatus (.faulted e)) ∨
         (∃ w, fetch s = .ok w ∧ decodeRow w = none ∧ t = s.setStatus (.faulted (.unrecognizedOpcode w))) ∨
         ∃ w i, fetch s = .ok w ∧ decode w = .ok i ∧ exec i s = .next t) := by
  unfold step
  cases hs : s.status with
  | faulted e => simp
  | running =>
    cases hf : fetch s with
    | error e => simp [eq_comm]
    | ok w =>
      cases hd : decode w with
      | error e =>
        obtain ⟨hn, -⟩ := decode_eq_error.1 hd
        simp only [attempt_ok, hd, raise_eq_next, true_and]
        simp [hn, hd, eq_comm (a := t)]
      | ok i =>
        have hn := decode_eq_ok.1 hd
        simp [hd, hn]

/-- A draw either fails its checks with the first sprite address that does not exist, or draws. -/
theorem drawSprite_eq_ok {m : Memory} {f : Screen} {a : Nat} {x y : Byte} {h : Nat} {r : Screen × Bool} :
    drawSprite m f a x y h = .ok r ↔
      (∀ k, k < h → a + k < 4096) ∧ r = drawRows (f, false) x.toNat y.toNat (m.bytesFrom a h) := by
  unfold drawSprite
  cases hr : memReadBytes m a h with
  | error e =>
    simp only [reduceCtorEq, false_iff, not_and]
    intro hk
    have := (memReadBytes_eq_ok (m := m)).2 ⟨hk, rfl⟩
    rw [hr] at this
    cases this
  | ok bytes =>
    obtain ⟨hk, rfl⟩ := memReadBytes_eq_ok.1 hr
    simp only [Except.ok.injEq, eq_comm (a := r), iff_and_self]
    exact fun _ => hk

/-- A failed draw reports the failed read. -/
theorem drawSprite_eq_error {m : Memory} {f : Screen} {a : Nat} {x y : Byte} {h : Nat} {e : Fault} :
    drawSprite m f a x y h = .error e ↔ memReadBytes m a h = .error e := by
  unfold drawSprite
  split <;> simp_all

end Sys2Proof.Machine
end

