-- ==== Sys2Proof/Laws/Port.lean ====
section
/-! SUPPORT. For each host transaction that branches, once, everything it can do: a load, a step, and when a step waits for a
key. -/

namespace Sys2Proof.Machine

/-- A load that fits writes the bytes at 0x200 (20_memory.md R92). -/
theorem loadBytes_of_fits {s : State} {bytes : List Byte} (h : bytes.length ≤ 3584) :
    loadBytes s bytes = .ok (s.setMem (s.mem.writeBytes 0x200 bytes)) := by
  rw [loadBytes, if_neg]
  simp only [Config.progMax, Config.memSize, Config.progBase]
  omega

/-- A load that does not fit changes nothing (20_memory.md R93). -/
theorem loadBytes_of_exceeds {s : State} {bytes : List Byte} (h : 3584 < bytes.length) :
    loadBytes s bytes = .error (.capacityExceeded bytes.length) := by
  rw [loadBytes, if_pos]
  simp only [Config.progMax, Config.memSize, Config.progBase]
  omega

/-- A load in a session, when it fits. -/
theorem load_of_fits {c : Session} {bytes : List Byte} (h : bytes.length ≤ 3584) :
    c.load bytes =
      (.loaded bytes.length, ⟨c.block.setMem (c.block.mem.writeBytes 0x200 bytes), .loaded⟩) := by
  rw [Session.load, loadBytes_of_fits h]

/-- A load in a session, when it does not fit. -/
theorem load_of_exceeds {c : Session} {bytes : List Byte} (h : 3584 < bytes.length) :
    c.load bytes =
      (.loadFault (.capacityExceeded bytes.length),
        ⟨c.block.setStatus (.faulted (.capacityExceeded bytes.length)), .loadFailed⟩) := by
  rw [Session.load, loadBytes_of_exceeds h]

/-- A load is admitted only in a fresh session (20_memory.md R94). -/
theorem transact_loadProgram_eq_ok {c c' : Session} {bytes : List Byte} {r : Reply} :
    transact c (.loadProgram bytes) = .ok (r, c') ↔ c.phase = .fresh ∧ c.load bytes = (r, c') := by
  simp only [transact]
  cases c.phase <;> simp

/-- A step is admitted but after a failed load (60_exceptions.md R272). -/
theorem transact_step_eq_ok {c c' : Session} {b : Byte} {r : Reply} :
    transact c (.step b) = .ok (r, c') ↔
      c.phase ≠ .loadFailed ∧ ∃ o t, c.block.stepPort b = .ok (o, t) ∧ r = .stepped o ∧ c' = ⟨t, .stepped⟩ := by
  simp only [transact]
  cases c.phase <;> rcases c.block.stepPort b with why | ⟨o, t⟩ <;>
    simp only [reduceCtorEq, ne_eq, not_true_eq_false, not_false_eq_true, false_and, true_and, exists_false,
      Except.ok.injEq, Prod.mk.injEq]
  all_goals exact ⟨fun ⟨hr, hc⟩ => ⟨o, t, ⟨rfl, rfl⟩, hr.symm, hc.symm⟩,
    fun ⟨_, _, ⟨ho, ht⟩, hr, hc⟩ => by subst ho ht hr hc; exact ⟨rfl, rfl⟩⟩

/-- Reset is admitted always (60_exceptions.md R282). -/
@[simp] theorem transact_reset (c : Session) : transact c .reset = .ok (.done, ⟨c.block.resetPort, .fresh⟩) := rfl

@[simp] theorem transact_resetKeys (c : Session) :
    transact c .resetKeys = .ok (.done, ⟨c.block.releaseKeys, c.phase⟩) := rfl

@[simp] theorem transact_tickTimers (c : Session) (n : Nat) :
    transact c (.tickTimers n) = .ok (.done, ⟨c.block.tickTimers n, c.phase⟩) := rfl

@[simp] theorem transact_readFramebuffer (c : Session) :
    transact c .readFramebuffer = .ok (.framebuffer c.block.framebuffer, c) := rfl

@[simp] theorem transact_readSoundActive (c : Session) :
    transact c .readSoundActive = .ok (.soundActive c.block.soundActive, c) := rfl

@[simp] theorem transact_readFault (c : Session) : transact c .readFault = .ok (.fault c.block.faultOutput, c) := rfl

/-- A key is admitted when it exists (20_memory.md R95). -/
theorem transact_setKey_eq_ok {c c' : Session} {k : Nat} {r : Reply} :
    transact c (.setKey k) = .ok (r, c') ↔ ∃ h : k < 16, r = .done ∧ c' = ⟨c.block.pressKey ⟨k, h⟩, c.phase⟩ := by
  by_cases h : k < 16
  · simp [transact, h, eq_comm]
  · simp [transact, h]

/-- A sequence of transactions goes on as far as each is admitted. -/
theorem transactAll_cons_eq_ok {c d : Session} {t : Transaction} {ts : List Transaction} :
    transactAll c (t :: ts) = .ok d ↔ ∃ r c', transact c t = .ok (r, c') ∧ transactAll c' ts = .ok d := by
  rw [transactAll]
  cases h : transact c t with
  | error why => simp
  | ok p =>
    obtain ⟨r, c'⟩ := p
    constructor
    · exact fun hd => ⟨r, c', rfl, hd⟩
    · rintro ⟨r', c'', he, hd⟩
      cases he
      exact hd

/-- A faulted core is left as it is, with its condition for an outcome (10_state.md R47). -/
theorem stepPort_of_faulted {s : State} {e : Fault} (h : s.status = .faulted e) (r : Byte) :
    s.stepPort r = .ok (.fault e, s) := by
  rw [State.stepPort, step_of_faulted (s := s.setRandom [r] s.draws) h]

/-- A step as the host sees it is a step of the core with the byte supplied (00_scope.md R9). -/
theorem stepPort_eq_ok {s t' : State} {r : Byte} {o : StepOutcome} :
    s.stepPort r = .ok (o, t') ↔
      (∃ t, step (s.setRandom [r] s.draws) = .next t ∧ o = outcomeTag s t ∧ t' = t.setRandom s.randomIn s.draws) ∨
      ∃ e, step (s.setRandom [r] s.draws) = .fault e ∧ o = .fault e ∧ t' = s := by
  unfold State.stepPort
  cases step (s.setRandom [r] s.draws) <;> simp [eq_comm]

/-- A step waits for a key when it finds `Fx0A` with nothing pending (43_io_timers.md R244). -/
theorem waitsForKey_iff {s : State} :
    s.waitsForKey = true ↔
      s.status = .running ∧ s.latch = none ∧ ∃ w x, fetch s = .ok w ∧ decode w = .ok (.keyGet x) := by
  unfold State.waitsForKey
  split
  · rename_i w hs hf
    split
    · rename_i x hd
      simp [hs, hf, hd]
    · rename_i hd
      simp only [Bool.false_eq_true, hf, Except.ok.injEq, false_iff, not_and, not_exists]
      rintro - - w x rfl hd'
      exact hd x hd'
  · rename_i h
    refine ⟨fun hf => (Bool.false_ne_true hf).elim, ?_⟩
    rintro ⟨hs, -, w, x, hf, -⟩
    exact (h w hs hf).elim

/-- A random byte is consumed from the model's own fields alone. -/
theorem consumeRandom_eq (s : State) : ∃ bytes n, s.consumeRandom = s.setRandom bytes n := by
  unfold State.consumeRandom
  split <;> exact ⟨_, _, rfl⟩

end Sys2Proof.Machine
end

