-- ==== Sys2Proof/Tests/Slice0.lean ====
section
/-! SUPPORT. The model's own tests: the well-formedness check, a word of every row written out from the layouts of
30_encoding.md R121 and R125, one-step tests taken from the vectors of 95_test_vectors.md (each names its vector), the host
transactions, and a witness for the hypotheses of every statement that has some. -/

namespace Sys2Proof.Tests

open Sys2Proof.Machine

/-! ### Well-formedness and decoding -/

/-- `00E0` is ClearScreen, never SysAddr (30_encoding.md R128). -/
theorem test_wf_refuses_sysAddr_0E0 : (Instr.sysAddr 0x0E0).wf = false := by decide

/-- `00EE` is Return, never SysAddr (30_encoding.md R128). -/
theorem test_wf_refuses_sysAddr_0EE : (Instr.sysAddr 0x0EE).wf = false := by decide

/-- The neighbours of the two words are SysAddr. -/
theorem test_wf_admits_sysAddr : (Instr.sysAddr 0x0E1).wf = true := by decide

/-- Rows 1 to 8 and 20, 22: `0000 0000 1110 0000`, `0000 nnn`, `0001 nnn`, ... (30_encoding.md R121, R125). -/
theorem test_decode_control :
    decodeTableWord 16 0b0000000011100000 = some (.clearScreen) ∧
    decodeTableWord 16 0b0000000011101110 = some (.ret) ∧
    decodeTableWord 16 0b0000001000110100 = some (.sysAddr 0x234) ∧
    decodeTableWord 16 0b0001101010111100 = some (.jump 0xABC) ∧
    decodeTableWord 16 0b0010001100000101 = some (.call 0x305) ∧
    decodeTableWord 16 0b0011001101000010 = some (.skipEqByte 0x3 0x42) ∧
    decodeTableWord 16 0b0100111010000001 = some (.skipNeByte 0xE 0x81) ∧
    decodeTableWord 16 0b0101000100100000 = some (.skipEqReg 0x1 0x2) ∧
    decodeTableWord 16 0b1001101101000000 = some (.skipNeReg 0xB 0x4) ∧
    decodeTableWord 16 0b1011011111110001 = some (.jumpV0 0x7F1) := by decide

/-- Rows 9 to 14: `0110 x kk`, `0111 x kk`, `1000 x y d` (30_encoding.md R121, R125). -/
theorem test_decode_loads :
    decodeTableWord 16 0b0110101000000101 = some (.loadByte 0xA 0x05) ∧
    decodeTableWord 16 0b0111110010010001 = some (.addByte 0xC 0x91) ∧
    decodeTableWord 16 0b1000110100110000 = some (.loadReg 0xD 0x3) ∧
    decodeTableWord 16 0b1000000100100001 = some (.orReg 0x1 0x2) ∧
    decodeTableWord 16 0b1000101001010010 = some (.andReg 0xA 0x5) ∧
    decodeTableWord 16 0b1000001101110011 = some (.xorReg 0x3 0x7) := by decide

/-- Rows 15 to 19 and 23: `1000 x y d`, `1100 x kk` (30_encoding.md R121, R125). -/
theorem test_decode_math :
    decodeTableWord 16 0b1000000100100100 = some (.mathAdd 0x1 0x2) ∧
    decodeTableWord 16 0b1000111010000101 = some (.mathSub 0xE 0x8) ∧
    decodeTableWord 16 0b1000000100100110 = some (.shiftRight 0x1 0x2) ∧
    decodeTableWord 16 0b1000010010110111 = some (.mathSubN 0x4 0xB) ∧
    decodeTableWord 16 0b1000100111001110 = some (.shiftLeft 0x9 0xC) ∧
    decodeTableWord 16 0b1100001100001111 = some (.rand 0x3 0x0F) := by decide

/-- Rows 21 and 31 to 35: `1010 nnn`, `1111 x kk` (30_encoding.md R121, R125). -/
theorem test_decode_index :
    decodeTableWord 16 0b1010010011010010 = some (.loadIndex 0x4D2) ∧
    decodeTableWord 16 0b1111010100011110 = some (.addIndex 0x5) ∧
    decodeTableWord 16 0b1111101000101001 = some (.fontGlyph 0xA) ∧
    decodeTableWord 16 0b1111011000110011 = some (.bcd 0x6) ∧
    decodeTableWord 16 0b1111000101010101 = some (.regDump 0x1) ∧
    decodeTableWord 16 0b1111110001100101 = some (.regLoad 0xC) := by decide

/-- Rows 24 to 30: `1101 x y n`, `1110 x kk`, `1111 x kk` (30_encoding.md R121, R125). -/
theorem test_decode_devices :
    decodeTableWord 16 0b1101000100100101 = some (.draw 0x1 0x2 0x5) ∧
    decodeTableWord 16 0b1110001010011110 = some (.skipKeyPressed 0x2) ∧
    decodeTableWord 16 0b1110101110100001 = some (.skipKeyNotPressed 0xB) ∧
    decodeTableWord 16 0b1111010000000111 = some (.loadDelay 0x4) ∧
    decodeTableWord 16 0b1111001100001010 = some (.keyGet 0x3) ∧
    decodeTableWord 16 0b1111100000010101 = some (.setDelay 0x8) ∧
    decodeTableWord 16 0b1111110100011000 = some (.setSound 0xD) := by decide

/-- Vectors FD4 to FD7, CF18, CF21, and one word between the `Fx` rows (30_encoding.md R127). -/
theorem test_decode_unrecognized :
    decodeTableWord 16 0b1110000000000000 = none ∧
    decodeTableWord 16 0b1111000000000000 = none ∧
    decodeTableWord 16 0b1000000000001111 = none ∧
    decodeTableWord 16 0b1000000000001000 = none ∧
    decodeTableWord 16 0b0101000100100001 = none ∧
    decodeTableWord 16 0b1001000100100001 = none ∧
    decodeTableWord 16 0b1111000000010110 = none := by decide

/-- The encoder writes the same words (30_encoding.md R121). -/
theorem test_encode : encode (.draw 0x1 0x2 0x5) = 0xD125 ∧ encode (.shiftRight 0x1 0x2) = 0x8126 ∧
    encode (.call 0x300) = 0x2300 ∧ encode (.regLoad 0xF) = 0xFF65 ∧ encode (.skipKeyNotPressed 0x2) = 0xE2A1 := by decide

/-- Vectors DS1 and DS6 of the disassembly (30_encoding.md R131). -/
theorem test_disassemble : disassemble (.loadByte 0xA 0x05) = "LoadByte V(0xA), 0x05" ∧
    disassemble (.draw 0x1 0x2 0x5) = "Draw V(0x1), V(0x2), 0x5" ∧ disassemble .ret = "Return" := by decide

/-- Fewer than two bytes are no instruction (30_encoding.md R120). -/
theorem test_decode_truncated : decodeBytes [0x12] = .error (.truncated 1) := by rfl

/-! ### One step

`runs s w p` puts the word `w` at the `pc` of `s`, issues one step and asks `p` of the next state. -/

/-- One step of the word at `pc`, and what it must leave. -/
def runs (s : State) (w : Nat) (p : State → Bool) : Bool :=
  match step (s.withFetchWord 16 w) with
  | .next t => p t
  | .fault _ => false
  | .refused _ => false

/-- One step that takes a fatal condition with `pc` at the instruction (40_control_flow.md R151). -/
def traps (s : State) (w : Nat) (e : Fault) : Bool := runs s w fun t => t.status == .faulted e && t.pc == s.pc

/-- The start of a vector: reset with two registers set. -/
def start (x : Nibble) (a : Byte) (y : Nibble) (b : Byte) : State := (State.reset.setReg y b).setReg x a

/-- Reset with `I` and one register set. -/
def startAt (i : Word) (x : Nibble) (a : Byte) : State := (State.reset.setReg x a).setIndex i

/-- Some bytes of memory. -/
def bytesAt (t : State) (a n : Nat) : List Byte := t.mem.bytesFrom a n

/-- Vector CF1. -/
theorem test_SysAddr : (traps State.reset 0x0234 (.unsupportedSystemCall 0x234)) = true := by decide

/-- Vector CF5. -/
theorem test_Return : (runs (((State.reset.setSp 16).setSlot 15 0x456).setPc 0x300) 0x00EE
    fun t => t.pc == 0x456 && t.sp == 15 && t.status == .running) = true := by decide

/-- Vector CF3. -/
theorem test_Return_empty : (traps State.reset 0x00EE .stackUnderflow) = true := by decide

/-- Vector CF6. -/
theorem test_Jump : (runs State.reset 0x1208 fun t => t.pc == 0x208) = true := by decide

/-- Vector CF10. -/
theorem test_Call : (runs ((State.reset.setSp 15).setPc 0x300) 0x2400
    fun t => t.pc == 0x400 && t.sp == 16 && t.stack[15] == 0x302) = true := by decide

/-- Vector CF11. -/
theorem test_Call_full : (traps ((State.reset.setSp 16).setPc 0x300) 0x2400 .stackOverflow) = true := by decide

/-- Vector CF12. -/
theorem test_SkipEqByte : (runs (start 0x3 0x42 0x0 0) 0x3342 fun t => t.pc == 0x204) = true := by decide

/-- Vector CF13. -/
theorem test_SkipEqByte_not : (runs (start 0x3 0x41 0x0 0) 0x3342 fun t => t.pc == 0x202) = true := by decide

/-- Vector CF15. -/
theorem test_SkipNeByte : (runs (start 0x3 0x41 0x0 0) 0x4342 fun t => t.pc == 0x204) = true := by decide

/-- Vector CF14. -/
theorem test_SkipNeByte_not : (runs (start 0x3 0x42 0x0 0) 0x4342 fun t => t.pc == 0x202) = true := by decide

/-- Vector CF16. -/
theorem test_SkipEqReg : (runs (start 0x1 0x07 0x2 0x07) 0x5120 fun t => t.pc == 0x204) = true := by decide

/-- Vector CF17. -/
theorem test_SkipEqReg_not : (runs (start 0x1 0x07 0x2 0x08) 0x5120 fun t => t.pc == 0x202) = true := by decide

/-- Vector CF19. -/
theorem test_SkipNeReg : (runs (start 0x1 0x07 0x2 0x08) 0x9120 fun t => t.pc == 0x204) = true := by decide

/-- Vector CF20. -/
theorem test_SkipNeReg_not : (runs (start 0x1 0x07 0x2 0x07) 0x9120 fun t => t.pc == 0x202) = true := by decide

/-- Vector CF23. -/
theorem test_JumpV0 : (runs (start 0x0 0xFF 0x1 0) 0xBFFF fun t => t.pc == 0x10FE) = true := by decide

/-- Vector AL2. -/
theorem test_LoadByte : (runs (start 0xF 0x01 0x0 0) 0x6F07 fun t => t.reg 0xF == 0x07 && t.pc == 0x202) = true := by decide

/-- Vector AL4. -/
theorem test_AddByte :
    (runs (start 0x0 0x10 0xF 0x55) 0x70F0 fun t => t.reg 0x0 == 0x00 && t.reg 0xF == 0x55) = true := by decide

/-- Vector AL5. -/
theorem test_LoadReg :
    (runs (start 0x1 0xAB 0x0 0) 0x8010 fun t => t.reg 0x0 == 0xAB && t.reg 0x1 == 0xAB) = true := by decide

/-- Vector AL6. -/
theorem test_Or :
    (runs ((start 0x0 0x0C 0x1 0x0A).setReg 0xF 0x55) 0x8011 fun t => t.reg 0x0 == 0x0E && t.reg 0xF == 0x55) = true := by decide

/-- Vector AL7. -/
theorem test_And :
    (runs ((start 0x0 0x0C 0x1 0x0A).setReg 0xF 0x55) 0x8012 fun t => t.reg 0x0 == 0x08 && t.reg 0xF == 0x55) = true := by decide

/-- Vector AL8. -/
theorem test_Xor :
    (runs ((start 0x0 0x0C 0x1 0x0A).setReg 0xF 0x55) 0x8013 fun t => t.reg 0x0 == 0x06 && t.reg 0xF == 0x55) = true := by decide

/-- Vector AL10. -/
theorem test_MathAdd :
    (runs (start 0x0 0xFF 0x1 0x02) 0x8014 fun t => t.reg 0x0 == 0x01 && t.reg 0xF == 0x01) = true := by decide

/-- Vector AL13. -/
theorem test_MathAdd_VF : (runs (start 0xF 0xFF 0x1 0x01) 0x8F14 fun t => t.reg 0xF == 0x01) = true := by decide

/-- Vector AL17. -/
theorem test_MathSub :
    (runs (start 0x0 0x01 0x1 0x02) 0x8015 fun t => t.reg 0x0 == 0xFF && t.reg 0xF == 0x00) = true := by decide

/-- Vector AL16. -/
theorem test_MathSub_equal :
    (runs (start 0x0 0x03 0x1 0x03) 0x8015 fun t => t.reg 0x0 == 0x00 && t.reg 0xF == 0x01) = true := by decide

/-- Vector AL23. -/
theorem test_ShiftRight :
    (runs (start 0x1 0x04 0x2 0xFF) 0x8126 fun t => t.reg 0x1 == 0x02 && t.reg 0xF == 0x00) = true := by decide

/-- Vector AL24. -/
theorem test_ShiftRight_VF : (runs (start 0xF 0x03 0x0 0) 0x8F06 fun t => t.reg 0xF == 0x01) = true := by decide

/-- Vector AL20. -/
theorem test_MathSubN :
    (runs (start 0x2 0x01 0x1 0x00) 0x8217 fun t => t.reg 0x2 == 0xFF && t.reg 0xF == 0x00) = true := by decide

/-- Vector AL19. -/
theorem test_MathSubN_noBorrow :
    (runs (start 0x2 0x00 0x1 0x01) 0x8217 fun t => t.reg 0x2 == 0x01 && t.reg 0xF == 0x01) = true := by decide

/-- Vector AL26. -/
theorem test_ShiftLeft :
    (runs (start 0x0 0x7F 0x1 0x80) 0x801E fun t => t.reg 0x0 == 0xFE && t.reg 0xF == 0x00) = true := by decide

/-- Vector AL27. -/
theorem test_ShiftLeft_VF : (runs (start 0xF 0x81 0x0 0) 0x8F0E fun t => t.reg 0xF == 0x01) = true := by decide

/-- Vector AL28. -/
theorem test_Rand :
    (runs (State.reset.setRandom [0xB6] 0) 0xC30F fun t => t.reg 0x3 == 0x06 && t.randomIn == []) = true := by decide

/-- Vector IX2. -/
theorem test_LoadIndex : (runs State.reset 0xAFFF fun t => t.i == 0xFFF) = true := by decide

/-- Vector IX4. -/
theorem test_AddIndex :
    (runs (startAt 0xFFF 0x5 0x01) 0xF51E fun t => t.i == 0x1000 && t.reg 0xF == 0x00) = true := by decide

/-- Vector IX5. -/
theorem test_AddIndex_wraps :
    (runs (startAt 0xFFFF 0x5 0x01) 0xF51E fun t => t.i == 0x0000 && t.reg 0xF == 0x00) = true := by decide

/-- Vector IX7. -/
theorem test_FontGlyph : (runs (startAt 0 0x0 0x0F) 0xF029 fun t => t.i == 0x04B) = true := by decide

/-- Vector IX8. -/
theorem test_FontGlyph_digit : (traps (startAt 0 0x0 0x10) 0xF029 (.invalidFontDigit 0x10)) = true := by decide

/-- Vector IX9. -/
theorem test_BCD : (runs (startAt 0x400 0x0 234) 0xF033 fun t => bytesAt t 0x3FF 5 == [0, 2, 3, 4, 0]) = true := by decide

/-- Vector IX14: nothing is written when a later byte does not exist. -/
theorem test_BCD_partial : (runs (startAt 0xFFE 0x0 0x12) 0xF033
    fun t => t.status == .faulted (.addressOutOfRange 0x1000) && bytesAt t 0xFFE 2 == [0, 0]) = true := by decide

/-- Vector IX16. -/
theorem test_RegDump :
    (runs ((startAt 0x300 0x0 0x11).setReg 0x1 0x22) 0xF155
      fun t => bytesAt t 0x300 3 == [0x11, 0x22, 0] && t.i == 0x300) = true := by decide

/-- Vector IX18. -/
theorem test_RegDump_font : (traps (startAt 0x04F 0x0 0x11) 0xF055 (.readOnlyWrite 0x04F)) = true := by decide

/-- Vector IX21. -/
theorem test_RegLoad : (runs State.reset 0xF465
    fun t => t.v.toList.take 6 == [0xF0, 0x90, 0x90, 0x90, 0xF0, 0x00] && t.i == 0) = true := by decide

/-- Vector IX23. -/
theorem test_RegLoad_partial : (traps (startAt 0xFFF 0x0 0) 0xF165 (.addressOutOfRange 0x1000)) = true := by decide

/-- The lit cells among some. -/
def lit (f : Screen) (cells : List (Nat × Nat)) : List Bool := cells.map fun c => f.cell (wrapX c.1) (wrapY c.2)

/-- Vector IO1. -/
theorem test_ClearScreen : (runs (State.reset.setScreen ((Screen.blank.setCell 0 0 true).setCell 63 31 true)) 0x00E0
    fun t => t.fb == Screen.blank && t.pc == 0x202) = true := by decide

/-- Vector IO9: `VF` is read as a coordinate, then written. -/
theorem test_Draw : (runs ((startAt 0x005 0xF 0x08).setReg 0x1 0) 0xDF11
    fun t => lit t.fb [(9, 0), (10, 0), (11, 0)] == [false, true, false] && t.reg 0xF == 0) = true := by decide

/-- Vector IO7. -/
theorem test_Draw_collision :
    (runs (State.reset.setScreen (Screen.blank.setCell 0 0 true)) 0xD011
    fun t => lit t.fb [(0, 0), (1, 0), (2, 0), (3, 0), (4, 0)] == [false, true, true, true, false] && t.reg 0xF == 1) = true := by decide

/-- Vector IO10. -/
theorem test_SkipKeyPressed :
    (runs ((start 0x2 0x07 0x0 0).pressKey 7) 0xE29E fun t => t.pc == 0x204 && t.latch == some 7) = true := by decide

/-- Vector IO12. -/
theorem test_SkipKeyPressed_key : (traps (start 0x2 0x10 0x0 0) 0xE29E (.invalidKey 0x10)) = true := by decide

/-- Vector IO13. -/
theorem test_SkipKeyNotPressed : (runs (start 0x2 0x07 0x0 0) 0xE2A1 fun t => t.pc == 0x204) = true := by decide

/-- Vector IO14. -/
theorem test_SkipKeyNotPressed_held :
    (runs ((start 0x2 0x07 0x0 0).pressKey 7) 0xE2A1 fun t => t.pc == 0x202) = true := by decide

/-- Vector IO19. -/
theorem test_LoadDelay :
    (runs (State.reset.setDelayTimer 0x3C) 0xF407 fun t => t.reg 0x4 == 0x3C && t.dt == 0x3C) = true := by decide

/-- Vector IO18. -/
theorem test_KeyGet :
    (runs (State.reset.setLatch (some 3)) 0xFF0A fun t => t.reg 0xF == 0x03 && t.latch == none && t.pc == 0x202) = true := by decide

/-- Vector IO16. -/
theorem test_KeyGet_waits :
    (runs (State.reset.setPc 0x300) 0xF30A fun t => t.pc == 0x300 && t.reg 0x3 == 0) = true := by decide

/-- Vector IO20. -/
theorem test_SetDelay : (runs (start 0x4 0x3C 0x0 0) 0xF415 fun t => t.dt == 0x3C && t.st == 0) = true := by decide

/-- Vector IO21. -/
theorem test_SetSound :
    (runs (start 0x4 0x02 0x0 0) 0xF418 fun t => t.st == 0x02 && t.soundActive && t.dt == 0) = true := by decide

/-! ### Fetch -/

/-- Vector FD1. -/
theorem test_fetch_last_byte : (match step (State.reset.setPc 0xFFF) with
    | .next t => t.status == .faulted (.addressOutOfRange 0x1000) && t.pc == 0xFFF
    | .fault _ => false
    | .refused _ => false) = true := by decide

/-- Vector CF24. -/
theorem test_fetch_past_memory : (match step (State.reset.setPc 0x10FE) with
    | .next t => t.status == .faulted (.addressOutOfRange 0x10FE)
    | .fault _ => false
    | .refused _ => false) = true := by decide

/-- Vector FD3. -/
theorem test_fetch_odd :
    (runs (State.reset.setPc 0x201) 0x602A fun t => t.reg 0x0 == 0x2A && t.pc == 0x203) = true := by decide

/-- Vector FD5. -/
theorem test_unrecognized : (traps State.reset 0xF000 (.unrecognizedOpcode 0xF000)) = true := by decide

/-! ### The host -/

/-- A session with the block in some state. -/
def sessionOf (s : State) : Session := ⟨s, .stepped⟩

/-- The reply to the last of some transactions, and what they must leave. -/
def host (c : Session) (ts : List Transaction) (p : State → Bool) : Bool :=
  match transactAll c ts with
  | .ok d => p d.block
  | .error _ => false

/-- The reply to one transaction. -/
def reply (c : Session) (t : Transaction) : Option Reply :=
  match transact c t with
  | .ok (r, _) => some r
  | .error _ => none

/-- Vector HT1. -/
theorem test_tick :
    (host (sessionOf ((State.reset.setDelayTimer 10).setSoundTimer 3)) [.tickTimers 5]
      fun t => t.dt == 5 && t.st == 0) = true := by decide

/-- Vector HT3. -/
theorem test_tick_clamped :
    (host (sessionOf ((State.reset.setDelayTimer 0xFF).setSoundTimer 0xFF)) [.tickTimers 1000]
      fun t => t.dt == 0 && t.st == 0) = true := by decide

/-- Vector HT5. -/
theorem test_tick_faulted :
    (host (sessionOf ((State.reset.setDelayTimer 5).setStatus (.faulted .stackUnderflow))) [.tickTimers 1]
    fun t => t.dt == 4 && t.status == .faulted .stackUnderflow) = true := by decide

/-- Vector HK1. -/
theorem test_set_key : (host (sessionOf (State.reset.pressKey 5)) [.setKey 3]
    fun t => t.held[3] && t.held[5] && t.latch == some 3) = true := by decide

/-- Vector HK3. -/
theorem test_reset_keys : (host (sessionOf (State.reset.pressKey 3)) [.resetKeys]
    fun t => t.held == Vector.replicate 16 false && t.latch == some 3) = true := by decide

/-- Vector HK5. -/
theorem test_set_key_refused : (reply Session.start (.setKey 0x10) == none) = true := by decide

/-- Scenario W2. -/
theorem test_load_and_run : (host Session.start [.loadProgram [0x6A, 0x05, 0x00, 0xEE], .step 0, .step 0]
    fun t => t.reg 0xA == 0x05 && t.pc == 0x202 && t.sp == 0 && t.status == .faulted .stackUnderflow) = true := by decide

/-- Vector HL3. -/
theorem test_load_empty : (reply Session.start (.loadProgram []) == some (.loaded 0)) = true := by decide

/-- Program P5. -/
theorem test_wait_for_key :
    (host Session.start [.loadProgram [0xF0, 0x0A, 0x12, 0x02], .step 0, .setKey 7, .resetKeys, .step 0]
    fun t => t.reg 0x0 == 0x07 && t.latch == none && t.pc == 0x202) = true := by decide

/-- Program P5. -/
theorem test_retry_reply :
    (reply ⟨State.reset.withFetchWord 16 0xF00A, .loaded⟩ (.step 0) == some (.stepped .retry)) = true := by decide

/-- Vector FD8. -/
theorem test_faulted_again : (reply (sessionOf (State.reset.setStatus (.faulted (.unrecognizedOpcode 0xF000)))) (.step 0) ==
      some (.stepped (.fault (.unrecognizedOpcode 0xF000)))) = true := by decide

/-- Vector AL28 at the port: the byte of `step(r)` is the one masked. -/
theorem test_rand_port : (host (sessionOf (State.reset.withFetchWord 16 0xC30F)) [.step 0xB6] fun t =>
    t.reg 0x3 == 0x06 && t.randomIn == [] && t.draws == 0) = true := by decide

/-- A second load is refused whatever comes between (20_memory.md R94). -/
theorem test_load_twice : (transactAll Session.start [.loadProgram [], .setKey 3, .loadProgram []] matches .error .loadNotAllowed) =
    true := by decide

/-- Vector HR1: reset from a faulted session with a program in memory. -/
theorem test_reset : host (sessionOf ((State.reset.withFetchWord 16 0xF000).setStatus (.faulted .stackOverflow))) [.reset]
    (fun t => bytesAt t 0x000 5 == [0xF0, 0x90, 0x90, 0x90, 0xF0] && bytesAt t 0x04B 6 == [0xF0, 0x80, 0xF0, 0x80, 0x80, 0x00] &&
      bytesAt t 0x200 2 == [0, 0] && t.status == .running) = true := by decide

/-- The codes of 60_exceptions.md R263, in its order. -/
theorem test_fault_codes : Fault.code (.unrecognizedOpcode 0) = 1 ∧ Fault.code .stackOverflow = 3 ∧
    Fault.code (.capacityExceeded 3585) = 9 := by decide
/-! ### Witnesses: a concrete state and operands that meet every hypothesis of a statement, clause by clause

Each is named after the statement. A statement without hypotheses has none. -/

/-- A core with a word at some `pc`. -/
def ready (pc : Word) (w : Nat) : State := (State.reset.setPc pc).withFetchWord 16 w

/-- Reset with `I` set. -/
def indexed (i : Word) : State := State.reset.setIndex i

/-- Reset with some stack depth. -/
def deep (n : Fin 17) : State := State.reset.setSp n

/-- A faulted core. -/
def stopped : State := State.reset.setStatus (.faulted .stackUnderflow)

theorem witness_DecodeOfEncodeIsTheInstruction : (Instr.sysAddr 0xFFF).wf = true ∧ (Instr.regLoad 0xF).wf = true := by decide

theorem witness_EncodeOfDecodeIsTheWord : decode 0x8126 = .ok (.shiftRight 0x1 0x2) := by rfl

theorem witness_DecodeSelectsTheTableRow : ⟨3, 0x0000, 0xF000, [0x00E0, 0x00EE]⟩ ∈ opcodeTable := by decide

theorem witness_StepRunsTheDecodedInstruction :
    (ready 0xFFE 0x1208).status = .running ∧ (ready 0xFFE 0x1208).pc.toNat + 1 < 4096 ∧
    decode (wordOfBytes ((ready 0xFFE 0x1208).mem.byteAt 0xFFE) ((ready 0xFFE 0x1208).mem.byteAt (0xFFE + 1))) =
      .ok (.jump 0x208) := ⟨rfl, by decide, rfl⟩

theorem witness_HalfwordReadIsBigEndianAndBounded :
    (State.reset.setPc 0xFFF).status = .running ∧ (State.reset.setPc 0xFFF).pc.toNat = 4095 := by decide

theorem witness_UnrecognizedWordIsFatal :
    (ready 0x200 0xF000).status = .running ∧ fetch (ready 0x200 0xF000) = .ok 0xF000 ∧
    ∀ i, decode 0xF000 ≠ .ok i := ⟨rfl, rfl, fun _ h => by rw [show decode 0xF000 = .error (.unrecognizedOpcode 0xF000) from rfl] at h; cases h⟩

theorem witness_FaultedCoreStaysFaulted :
    stopped.status = .faulted .stackUnderflow ∧ (sessionOf stopped).block.status ≠ .running ∧
    transact (sessionOf stopped) (.setKey 3) = .ok (.done, sessionOf (stopped.pressKey 3)) ∧
    Session.start.block.status = .running := ⟨rfl, by decide, rfl, rfl⟩

/-- A step that raises, and one that retries. -/
theorem witness_RaisedOrRetriedStepWritesNothing :
    (ready 0x200 0x00EE).status = .running ∧
    (ready 0x200 0x00EE).stepPort 0 =
      .ok (.fault .stackUnderflow, (ready 0x200 0x00EE).setStatus (.faulted .stackUnderflow)) ∧
    (ready 0x200 0xF00A).stepPort 0 = .ok (.retry, ready 0x200 0xF00A) := ⟨rfl, rfl, rfl⟩

theorem witness_EveryRunningStepHasANextState : State.reset.status = .running ∧ stopped.status = .faulted .stackUnderflow := by
  decide

theorem witness_StoredFetchWordIsRunNext : stopped.MemoryCanonical ∧ (Instr.call 0x300).wf = true := ⟨rfl, rfl⟩

theorem witness_StoredWordIsFetchedNext :
    (indexed 0x202).MemoryCanonical ∧ (indexed 0x202).status = .running ∧ 1 ≤ (0x1 : Nibble).toNat ∧
    (indexed 0x202).i = (indexed 0x202).pc + 2 ∧
    ∃ t, exec (.regDump 0x1) (indexed 0x202) = .next t ∧ t.status = .running := ⟨rfl, rfl, by decide, by decide, _, rfl, rfl⟩

/-- The last free slot, and none. -/
theorem witness_CallPushesTheNextAddress : (deep 15).sp.val < 16 ∧ (deep 16).sp.val = 16 := by decide

/-- A full stack, one address, and none. -/
theorem witness_ReturnPopsTheStack : 0 < (deep 16).sp.val ∧ 0 < (deep 1).sp.val ∧ (deep 0).sp.val = 0 := by decide

theorem witness_ByteSkipsCompareWithTheImmediate : (start 0x3 0x42 0x0 0).reg 0x3 = 0x42 ∧ (start 0x3 0x41 0x0 0).reg 0x3 ≠ 0x42 := by
  decide

theorem witness_RegisterSkipsCompareTwoRegisters :
    (start 0x1 7 0x2 7).reg 0x1 = (start 0x1 7 0x2 7).reg 0x2 ∧ (start 0x1 7 0x2 8).reg 0x1 ≠ (start 0x1 7 0x2 8).reg 0x2 := by
  decide

theorem witness_CallThenReturnResumesAfterTheCall : (deep 15).sp.val < 16 := by decide

theorem witness_JumpToItselfIsNeverLeft :
    (ready 0x200 0x1200).status = .running ∧ fetch (ready 0x200 0x1200) = .ok (encode (.jump 0x200)) ∧
    (ready 0x200 0x1200).pc.toNat = (0x200 : Addr12).toNat := ⟨rfl, rfl, rfl⟩

/-- For the flag statements: the result survives in every register but `VF`. -/
theorem witness_result_registers : (0xE : Nibble) ≠ 0xF ∧ ¬(0xF : Nibble) ≠ 0xF := by decide

theorem witness_RandomByteIsMasked :
    (State.reset.setRandom [0xB6, 0x01] 0).randomIn = 0xB6 :: [0x01] ∧ State.reset.randomIn = [] ∧
    (ready 0x200 0xC30F).status = .running ∧ fetch (ready 0x200 0xC30F) = .ok (encode (.rand 0x3 0x0F)) ∧
    ∃ o t, (ready 0x200 0xC30F).stepPort 0xB6 = .ok (o, t) := ⟨rfl, rfl, rfl, rfl, _, _, rfl⟩

theorem witness_FontGlyphPointsAtTheDigit :
    ((start 0x0 0x0F 0x1 0).reg 0x0).toNat < 16 ∧ 16 ≤ ((start 0x0 0x10 0x1 0).reg 0x0).toNat := by decide

/-- The first and the last place a BCD fits, the last font byte, and one byte too far. -/
theorem witness_BcdStoresTheDecimalDigits :
    State.reset.MemoryCanonical ∧ (80 ≤ (indexed 80).byteAddr 0 ∧ (indexed 80).byteAddr 2 < 4096) ∧
    (80 ≤ (indexed 4093).byteAddr 0 ∧ (indexed 4093).byteAddr 2 < 4096) ∧ (indexed 79).byteAddr 0 < 80 ∧
    4096 ≤ (indexed 4094).byteAddr 2 := ⟨rfl, by decide⟩

/-- The first and the last place 16 registers fit, the last font byte, and one byte too far. -/
theorem witness_RegDumpStoresTheRegisters :
    State.reset.MemoryCanonical ∧ (80 ≤ (indexed 80).byteAddr 0 ∧ (indexed 80).byteAddr 15 < 4096) ∧
    (80 ≤ (indexed 4080).byteAddr 0 ∧ (indexed 4080).byteAddr 15 < 4096) ∧ (indexed 79).byteAddr 0 < 80 ∧
    4096 ≤ (indexed 4081).byteAddr 15 := ⟨rfl, by decide⟩

theorem witness_RegLoadReadsTheRegisters :
    (indexed 4080).byteAddr 15 < 4096 ∧ (indexed 0).byteAddr 0 < 4096 ∧ 4096 ≤ (indexed 4081).byteAddr 15 := by decide

/-- No rows anywhere, the last place five rows fit, and one byte too far. -/
theorem witness_DrawInvertsTheCoveredCells :
    ((0x0 : Nibble) = 0 ∨ (indexed 0xFFFF).byteAddr 0 ≤ 4096) ∧ ((0x5 : Nibble) = 0 ∨ (indexed 4091).byteAddr 5 ≤ 4096) ∧
    ((0x5 : Nibble) ≠ 0 ∧ 4096 < (indexed 4092).byteAddr 5) := by decide

theorem witness_DrawTwiceRestoresTheScreen :
    (0x0 : Nibble) ≠ 0xF ∧ (0xE : Nibble) ≠ 0xF ∧ ((0x5 : Nibble) = 0 ∨ (indexed 4091).byteAddr 5 ≤ 4096) := by decide

theorem witness_KeySkipsTestTheHeldKey :
    ((start 0x2 0x0F 0x0 0).reg 0x2).toNat < 16 ∧ (start 0x2 0x0F 0x0 0).held[15] = false ∧
    ((start 0x2 0x0F 0x0 0).pressKey 15).held[15] = true ∧ 16 ≤ ((start 0x2 0x10 0x0 0).reg 0x2).toNat := by decide

theorem witness_KeyGetConsumesTheLatch : (State.reset.setLatch (some 15)).latch = some 15 ∧ State.reset.latch = none := by decide

theorem witness_WaitingKeyReadRetriesUntilAKey :
    (ready 0x300 0xF30A).status = .running ∧ fetch (ready 0x300 0xF30A) = .ok (encode (.keyGet 0x3)) ∧
    (ready 0x300 0xF30A).latch = none := ⟨rfl, rfl, rfl⟩

theorem witness_ResetKeysKeepsTheLatch : (16 : Nat) ≤ 16 := by decide

/-- A ROM of some length. -/
def rom (n : Nat) : List Byte := List.replicate n 0

theorem length_rom (n : Nat) : (rom n).length = n := List.length_replicate

/-- The longest ROM that loads, and one byte more. -/
theorem witness_LoadProgramFillsMemoryFrom200 :
    Session.start.phase = .fresh ∧ Session.start.block.MemoryCanonical ∧ (rom 3584).length ≤ 3584 ∧
    3584 < (rom 3585).length := ⟨rfl, rfl, (length_rom _).le, (length_rom _).ge⟩

/-- Transactions without a reset that keep the phase, and the steps a loaded core may run among them. -/
def between : List Transaction := [.setKey 3, .tickTimers 1, .readFault]

/-- A load, a step and a load that fails, each with other transactions after it. -/
theorem witness_LoadOnlyOnceBeforeTheFirstStep :
    (∃ p c', transact Session.start (.setKey 3) = .ok (p, c') ∧ ¬MovesPhase (.setKey 3)) ∧ Transaction.reset ∉ between ∧
    (∃ p c' d, transact Session.start (.loadProgram [0x12, 0x00]) = .ok (p, c') ∧
      transactAll c' (between ++ [.step 0]) = .ok d) ∧
    (∃ p c' d, transact Session.start (.step 0) = .ok (p, c') ∧ transactAll c' between = .ok d) ∧
    (∃ p c' d, transact Session.start (.loadProgram (rom 3585)) = .ok (p, c') ∧ transactAll c' between = .ok d) ∧
    3584 < (rom 3585).length :=
  ⟨⟨_, _, rfl, id⟩, by decide, ⟨_, _, _, rfl, rfl⟩, ⟨_, _, _, rfl, rfl⟩,
    ⟨_, _, _, transact_loadProgram_eq_ok.2 ⟨rfl, load_of_exceeds (length_rom _).ge⟩, rfl⟩, (length_rom _).ge⟩

theorem witness_SpecialRegistersHaveNamedWriters : ∃ t, exec (.loadIndex 0x400) State.reset = .next t := ⟨_, rfl⟩

theorem witness_MemoryAndDevicesHaveNamedWriters : ∃ t, exec (.bcd 0x0) (indexed 0x400) = .next t := ⟨_, rfl⟩

/-- A flag writer that runs. -/
theorem witness_GeneralRegistersHaveNamedWriters :
    ∃ t, exec (.mathAdd 0x0 0x1) State.reset = .next t ∧ IsFlagWriter (.mathAdd 0x0 0x1) ∧ State.reset.status = .running ∧
      t.status = .running := ⟨_, rfl, trivial, rfl, rfl⟩

theorem witness_SoundTimerIsInvisible : ∃ t, step (ready 0x200 0xF418) = .next t := ⟨_, rfl⟩

/-- The slot a call fills, at an empty stack: it is in use afterwards. -/
theorem witness_UnusedStackSlotsAreInvisible :
    (ready 0x200 0x2300).sp.val ≤ (0 : Fin 16).val ∧
    ∃ t, step (ready 0x200 0x2300) = .next t ∧ (0 : Fin 16).val < t.sp.val := ⟨by decide, _, rfl, by decide⟩

theorem witness_StepKeepsMemoryCanonical :
    (ready 0x200 0xF033).MemoryCanonical ∧ ∃ t, step (ready 0x200 0xF033) = .next t := ⟨rfl, _, rfl⟩

/-- The font region of any memory that lists no byte of it. -/
theorem witness_StepKeepsTheFontRegion : State.reset.FontIntact ∧ ∃ t, step State.reset = .next t :=
  ⟨fun a h => by simp [State.reset, Memory.byteAt, Memory.unlisted, h], _, rfl⟩

/-- At the bound itself, after `BFFF` with `V0 = 0xFF`. -/
theorem witness_StepKeepsThePcBound : (State.reset.setPc 0x10FE).PcBounded ∧ ∃ t, step (State.reset.setPc 0x10FE) = .next t :=
  ⟨⟨by decide, by simp [State.reset]⟩, _, rfl⟩

theorem witness_TransactionsKeepTheInvariant :
    Session.start.block.Inv ∧ ∃ r d, transact Session.start (.loadProgram [0x12, 0x00]) = .ok (r, d) :=
  ⟨⟨rfl, witness_StepKeepsTheFontRegion.1, by decide, by simp [Session.start, State.reset]⟩, _, _, rfl⟩

/-- A fresh session that meets the invariant, and one after a failed load. -/
theorem witness_TransactionsKeepTheSessionInvariant :
    Session.start.Inv ∧ (⟨State.reset.setStatus (.faulted (.capacityExceeded 3585)), .loadFailed⟩ : Session).Inv ∧
    ∃ r d, transact Session.start (.loadProgram [0x12, 0x00]) = .ok (r, d) :=
  ⟨⟨witness_TransactionsKeepTheInvariant.1, fun _ => rfl, fun h => nomatch h⟩,
    ⟨witness_TransactionsKeepTheInvariant.1, fun h => h.elim (fun h => nomatch h) (fun h => nomatch h),
      fun _ => ⟨3585, by decide, rfl⟩⟩, _, _, rfl⟩

/-- Each phase the conclusion names can be reached. -/
theorem witness_ReachableSessionsMeetTheInvariant :
    Session.Reachable Session.start ∧ (∃ c, Session.Reachable c ∧ c.phase = .loaded) ∧
    ∃ c, Session.Reachable c ∧ c.phase = .loadFailed :=
  ⟨.start, ⟨_, .after (t := .loadProgram []) .start rfl, rfl⟩,
    ⟨_, .after .start (transact_loadProgram_eq_ok.2 ⟨rfl, load_of_exceeds (length_rom 3585).ge⟩), rfl⟩⟩

end Sys2Proof.Tests
end

section
/-! PROOFS. The memory family (20_memory.md): halfword reads and failed fetches, `set_key`, `load_program`. First the frames
of the setters these operations are made of, each said once; a frame of a composed operation follows by
`SameOutside.trans`. -/

namespace Sys2Proof.Machine

/-! ### Frames -/

theorem SamePart.trans {s t u : State} {p : Part} (hst : SamePart s t p) (htu : SamePart t u p) : SamePart s u p := by
  cases p with
  | regs | memory => exact fun a => (htu a).trans (hst a)
  | screen => exact fun x y => (htu x y).trans (hst x y)
  | stack | random => exact ⟨htu.1.trans hst.1, htu.2.trans hst.2⟩
  | index | delay | sound | held | latch | status => exact Eq.trans htu hst

/-- Frames compose: what neither of two updates writes is unchanged by both. -/
theorem SameOutside.trans {s t u : State} {ps qs : List Part} (hst : SameOutside s t ps) (htu : SameOutside t u qs) :
    SameOutside s u (ps ++ qs) := fun p hp =>
  have ⟨hps, hqs⟩ := not_or.1 (List.mem_append.not.1 hp)
  (hst p hps).trans (htu p hqs)

theorem sameOutside_setMem (s : State) (m : Memory) : SameOutside s (s.setMem m) [.memory] := by
  intro p hp
  cases p with
  | memory => simp at hp
  | _ => simp [SamePart]

theorem sameOutside_setHeld (s : State) (h : Vector Bool 16) : SameOutside s (s.setHeld h) [.held] := by
  intro p hp
  cases p with
  | held => simp at hp
  | _ => simp [SamePart]

theorem sameOutside_setLatch (s : State) (k : Option Key) : SameOutside s (s.setLatch k) [.latch] := by
  intro p hp
  cases p with
  | latch => simp at hp
  | _ => simp [SamePart]

theorem sameOutside_setStatus (s : State) (t : Status) : SameOutside s (s.setStatus t) [.status] := by
  intro p hp
  cases p with
  | status => simp at hp
  | _ => simp [SamePart]

/-! ### `load_program` (20_memory.md R92, R93) -/

/-- Settles O45: the bytes of a load that fits are one write from 0x200, inside memory since 0x200 + 3584 = 4096; a load
that does not fit writes `Status` alone. -/
theorem loadProgramFillsMemoryFrom200 : Obligations.LoadProgramFillsMemoryFrom200 := by
  intro c bytes hfresh hcanonical
  constructor
  · intro hfits
    refine ⟨_, transact_loadProgram_eq_ok.2 ⟨hfresh, load_of_fits hfits⟩, ?_, ?_, rfl, sameOutside_setMem _ _⟩
    · intro k hk
      exact byteAt_writeBytes_inside hcanonical (by omega) hk
    · intro b hb
      exact byteAt_writeBytes_outside hb
  · intro hexceeds
    exact ⟨_, transact_loadProgram_eq_ok.2 ⟨hfresh, load_of_exceeds hexceeds⟩,
      sameOutside_setStatus _ _ .memory (by decide)⟩

/-! ### Halfword reads and failed fetches (20_memory.md R84) -/

/-- A fetch at the last byte of memory or beyond reports the first address that does not exist. -/
theorem fetch_of_outside {s : State} (h : 4095 ≤ s.pc.toNat) :
    fetch s = .error (.addressOutOfRange (firstOutside s.pc.toNat)) := by
  refine fetch_eq_error.2 ?_
  by_cases hpc : 4096 ≤ s.pc.toNat
  · exact .inl ⟨hpc, congrArg _ (max_eq_left hpc)⟩
  · exact .inr ⟨by omega, congrArg _ (max_eq_right (by omega : s.pc.toNat ≤ 4096))⟩

/-- A running core whose fetch fails takes the condition (60_exceptions.md R273). -/
theorem step_of_fetch_error {s : State} {e : Fault} (hs : s.status = .running) (hf : fetch s = .error e) :
    step s = .next (s.setStatus (.faulted e)) :=
  step_eq_next.2 ⟨hs, .inl ⟨e, hf, rfl⟩⟩

/-- Settles O8, by where the two addresses lie: both outside memory, the second only, or neither; a failed fetch is a failed
read at `pc`. -/
theorem halfwordReadIsBigEndianAndBounded : Obligations.HalfwordReadIsBigEndianAndBounded := by
  intro s a
  refine ⟨fun hout => ?_, fun hlast => ?_, fun hin => ?_, fun hrunning hpc hout => ?_⟩
  · exact memReadHalfword_eq_error.2 (.inl ⟨hout, rfl⟩)
  · subst hlast
    exact memReadHalfword_eq_error.2 (.inr ⟨rfl, rfl⟩)
  · exact ⟨_, memReadHalfword_eq_ok.2 ⟨by omega, rfl⟩, toNat_wordOfBytes _ _⟩
  · subst hpc
    exact ⟨_, step_of_fetch_error hrunning (fetch_of_outside hout), rfl⟩

/-! ### `set_key` (20_memory.md R96) -/

/-- A press sets the flag of its own key and of no other. -/
theorem held_pressKey (s : State) (k j : Key) :
    (s.pressKey k).held[j.val]'j.isLt = if j = k then true else s.held[j.val]'j.isLt := by
  simp [State.pressKey, Vector.getElem_set, Fin.ext_iff, eq_comm]

theorem sameOutside_pressKey (s : State) (k : Key) : SameOutside s (s.pressKey k) [.held, .latch] :=
  (sameOutside_setHeld s _).trans (sameOutside_setLatch _ _)

/-- Settles O43: the transaction is `pressKey`, whose held flags and frame the two lemmas above state. -/
theorem setKeyHoldsAndLatches : Obligations.SetKeyHoldsAndLatches := by
  intro c k
  refine ⟨_, transact_setKey_eq_ok.2 ⟨k.isLt, rfl, rfl⟩, ?_, rfl, ?_, rfl, rfl, sameOutside_pressKey _ _⟩
  · simp [held_pressKey]
  · intro j hj
    simp [held_pressKey, hj]

end Sys2Proof.Machine
end

section
/-! PROOFS. The control-flow family (40_control_flow.md): jump, call, return, system call and the four compare-and-skip
instructions. First the frames of the setters they are made of, then what each of call and return ends in; the four skips
are one lemma over the condition they test. -/

namespace Sys2Proof.Machine

/-! ### Frames -/

/-- `pc` is no part of a frame. -/
theorem sameOutside_setPc (s : State) (t : Word) : SameOutside s (s.setPc t) [] := by
  intro p _
  cases p <;> simp [SamePart]

/-- A frame survives a later write of `pc`. -/
theorem SameOutside.setPc {s t : State} {ps : List Part} {a : Word} (h : SameOutside s t ps) :
    SameOutside s (t.setPc a) ps := by
  simpa using h.trans (sameOutside_setPc t a)

theorem sameOutside_advance (s : State) : SameOutside s s.advance [] := sameOutside_setPc s _

theorem sameOutside_advanceSkipping (s : State) (c : Bool) : SameOutside s (s.advanceSkipping c) [] := by
  rw [advanceSkipping_eq]
  exact sameOutside_setPc s _

theorem sameOutside_setSp (s : State) (n : Fin 17) : SameOutside s (s.setSp n) [.stack] := by
  intro p hp
  cases p with
  | stack => simp at hp
  | _ => simp [SamePart]

/-- What a push writes is the stack alone: a slot and `SP`. -/
theorem sameOutside_setSlot_setSp (s : State) (k : Fin 16) (t : Word) (n : Fin 17) :
    SameOutside s ((s.setSlot k t).setSp n) [.stack] := by
  intro p hp
  cases p with
  | stack => simp at hp
  | _ => simp [SamePart]

/-! ### Jump and system call (40_control_flow.md R153, R155) -/

theorem toNat_zextAddr (nnn : Addr12) : (zextAddr nnn).toNat = nnn.toNat :=
  BitVec.toNat_setWidth_of_le (by decide)

/-- Settles O15: `1nnn` is two writes of `pc`, the advance and the target. -/
theorem jumpGoesToItsAddress : Obligations.JumpGoesToItsAddress := by
  intro s nnn
  exact ⟨_, rfl, toNat_zextAddr nnn, (sameOutside_advance s).setPc⟩

/-- Settles O19: the meaning of `0nnn` is a raise and nothing else. -/
theorem systemCallIsFatal : Obligations.SystemCallIsFatal := by
  intro s nnn
  exact ⟨_, raise_eq_next.2 rfl, setStatus_status s _⟩

/-! ### Call and return (40_control_flow.md R154, R156) -/

/-- A call with room stores `pc + 2` in the slot at `SP`, raises `SP` and goes to its target. -/
theorem exec_call_of_room {s : State} (nnn : Addr12) (h : s.sp.val < 16) :
    exec (.call nnn) s = .next
      (((s.advance.setSlot ⟨s.sp.val, h⟩ (s.pc + 2)).setSp ⟨s.sp.val + 1, by omega⟩).setPc (zextAddr nnn)) :=
  attempt_eq_next.2 (.inr ⟨_, push_eq_ok.2 ⟨h, rfl⟩, rfl⟩)

theorem exec_call_of_full {s : State} (nnn : Addr12) (h : s.sp.val = 16) :
    exec (.call nnn) s = .next (s.setStatus (.faulted .stackOverflow)) :=
  attempt_eq_next.2 (.inl ⟨_, push_eq_error.2 ⟨h, rfl⟩, rfl⟩)

/-- A return with an address held lowers `SP` and goes to the address in the slot below the old `SP`. -/
theorem exec_ret_of_held {s : State} (h : s.sp.val ≠ 0) :
    exec .ret s = .next
      ((s.advance.setSp ⟨s.sp.val - 1, by omega⟩).setPc (s.stack[s.sp.val - 1]'(by have := s.sp.isLt; omega))) :=
  attempt_eq_next.2 (.inr ⟨_, pop_eq_ok.2 ⟨h, rfl, rfl⟩, rfl⟩)

theorem exec_ret_of_empty {s : State} (h : s.sp.val = 0) :
    exec .ret s = .next (s.setStatus (.faulted .stackUnderflow)) :=
  attempt_eq_next.2 (.inl ⟨_, pop_eq_error.2 ⟨h, rfl⟩, rfl⟩)

/-- Settles O17, by whether the push has room: the slot at `SP` is written and the others read as before. -/
theorem callPushesTheNextAddress : Obligations.CallPushesTheNextAddress := by
  intro s nnn
  constructor
  · intro hroom
    refine ⟨_, exec_call_of_room nnn hroom, toNat_zextAddr nnn, rfl, ?_, fun k hk => ?_,
      ((sameOutside_advance s).trans (sameOutside_setSlot_setSp _ _ _ _)).setPc⟩
    · simp
    · simp [Vector.getElem_set_ne _ _ hk.symm]
  · intro hfull
    exact ⟨_, exec_call_of_full nnn hfull, rfl⟩

/-- Settles O18, by whether an address is held: a pop reads the slot below `SP` and writes `SP` alone. -/
theorem returnPopsTheStack : Obligations.ReturnPopsTheStack := by
  intro s
  constructor
  · intro hheld
    exact ⟨_, exec_ret_of_held hheld.ne', rfl, Nat.sub_add_cancel hheld, rfl,
      ((sameOutside_advance s).trans (sameOutside_setSp _ _)).setPc⟩
  · intro hempty
    exact ⟨_, exec_ret_of_empty hempty, rfl⟩

/-! ### Skips (40_control_flow.md R157 to R160) -/

/-- An instruction that skips on `c` moves `pc` by 4 where `c` is true and by 2 where it is false, and changes nothing
else. -/
theorem completes_of_skip {i : Instr} {s : State} {c : Bool} {taken passed : Prop}
    (hexec : exec i s = complete (s.advanceSkipping c)) (htaken : taken → c = true) (hpassed : passed → c = false) :
    Completes i s fun t =>
      (taken → t.pc = s.pc + 4) ∧ (passed → t.pc = s.pc + 2) ∧ SameOutside s t [] := by
  refine ⟨_, hexec, fun h => ?_, fun h => ?_, sameOutside_advanceSkipping s c⟩
  · simp [htaken h]
  · simp [hpassed h]

/-- Settles O20: both instructions skip, on `Vx == kk` and on `Vx != kk`. -/
theorem byteSkipsCompareWithTheImmediate : Obligations.ByteSkipsCompareWithTheImmediate := by
  intro s x kk
  exact ⟨completes_of_skip rfl beq_iff_eq.2 beq_false_of_ne,
    completes_of_skip rfl bne_iff_ne.2 bne_eq_false_iff_eq.2⟩

/-- Settles O21: both instructions skip, on `Vx == Vy` and on `Vx != Vy`. -/
theorem registerSkipsCompareTwoRegisters : Obligations.RegisterSkipsCompareTwoRegisters := by
  intro s x y
  exact ⟨completes_of_skip rfl beq_iff_eq.2 beq_false_of_ne,
    completes_of_skip rfl bne_iff_ne.2 bne_eq_false_iff_eq.2⟩

end Sys2Proof.Machine
end

section
/-! PROOFS. The ALU family (41_alu.md): loads, additions, subtractions and shifts. Each instruction writes its result register
and some write `VF` after it (R193). What the two shapes leave in the state is said once each; an instruction's proof is then
the arithmetic of its result and of its flag. -/

namespace Sys2Proof.Machine

/-! ### Register writes -/

theorem sameOutside_setReg (s : State) (x : Nibble) (b : Byte) : SameOutside s (s.setReg x b) [.regs] := by
  intro p hp
  cases p with
  | regs => simp at hp
  | _ => simp [SamePart]

/-- A frame that lets the registers change survives a later write of a register. -/
theorem SameOutside.setReg {s t : State} {ps : List Part} {x : Nibble} {b : Byte} (h : SameOutside s t ps)
    (hregs : Part.regs ∈ ps) : SameOutside s (t.setReg x b) ps := fun p hp =>
  (h p hp).trans (sameOutside_setReg t x b p fun hmem => hp (List.mem_singleton.1 hmem ▸ hregs))

/-- An instruction that writes one register leaves the value there, moves `pc` by 2 and changes nothing else. -/
theorem completes_of_setReg {i : Instr} {s : State} {x : Nibble} {b : Byte}
    (hexec : exec i s = complete (s.advance.setReg x b)) :
    Completes i s fun t => t.reg x = b ∧ SameRegsBut s t [x] ∧ t.pc = s.pc + 2 ∧ SameOutside s t [.regs] := by
  refine ⟨_, hexec, ?_, fun r hr => ?_, rfl, (sameOutside_advance s).trans (sameOutside_setReg _ _ _)⟩
  · simp
  · simp [List.ne_of_not_mem_cons hr]

/-- An instruction that writes a result and then the flag leaves the flag in `VF`, so that the flag wins where the result
register is `VF` (41_alu.md R193, decision D13); it moves `pc` by 2 and changes nothing else. -/
theorem completes_of_setReg_setFlag {i : Instr} {s : State} {x : Nibble} {b : Byte} {c : Bool} {result flag : Nat}
    (hexec : exec i s = complete ((s.advance.setReg x b).setFlag c)) (hresult : b.toNat = result)
    (hflag : (flagByte c).toNat = flag) :
    Completes i s fun t => (x ≠ flagReg → (t.reg x).toNat = result) ∧ (t.reg flagReg).toNat = flag ∧
      SameRegsBut s t [x, flagReg] ∧ t.pc = s.pc + 2 ∧ SameOutside s t [.regs] := by
  refine ⟨_, hexec, fun hx => ?_, ?_, fun r hr => ?_, rfl,
    ((sameOutside_advance s).trans (sameOutside_setReg _ _ _)).setReg (List.mem_singleton.2 rfl)⟩
  · simp [hx, hresult]
  · simp [hflag]
  · obtain ⟨hrx, hrflag⟩ : r ≠ x ∧ r ≠ flagReg := by simpa using hr
    simp [hrx, hrflag]

/-! ### Flags as numbers (41_alu.md R186 to R190) -/

theorem toNat_flagByte_decide (p : Prop) [Decidable p] : (flagByte (decide p)).toNat = if p then 1 else 0 := by
  by_cases hp : p <;> simp [flagByte, hp]

/-- Bit 0 is the remainder by 2. -/
theorem toNat_flagByte_lowBit (a : Byte) : (flagByte (lowBit a)).toNat = a.toNat % 2 := by
  rw [lowBit, BitVec.getLsbD, Nat.testBit_zero, toNat_flagByte_decide]
  split <;> omega

/-- Bit 7 is the quotient by 128. -/
theorem toNat_flagByte_highBit (a : Byte) : (flagByte (highBit a)).toNat = a.toNat / 128 := by
  have hmsb : highBit a = decide (128 ≤ a.toNat) := BitVec.msb_eq_decide a
  rw [hmsb, toNat_flagByte_decide]
  split <;> omega

/-! ### Loads and the immediate addition (41_alu.md R180 to R182) -/

/-- Settles O24: all three write one register; that of `7xkk` is the sum of two bytes. -/
theorem loadsAndImmediateAdd : Obligations.LoadsAndImmediateAdd := by
  intro s x y kk
  refine ⟨completes_of_setReg rfl, ?_, completes_of_setReg rfl⟩
  obtain ⟨t, hexec, hsum, hframe⟩ := completes_of_setReg (i := .addByte x kk) (s := s) rfl
  exact ⟨t, hexec, hsum ▸ BitVec.toNat_add _ _, hframe⟩

/-! ### Addition, subtraction and shifts with a flag (41_alu.md R186 to R190) -/

/-- Settles O26: the result is the sum of two bytes, the flag its comparison with 255. -/
theorem addLeavesTheCarry : Obligations.AddLeavesTheCarry := by
  intro s x y
  exact completes_of_setReg_setFlag rfl (BitVec.toNat_add _ _) (toNat_flagByte_decide _)

/-- A difference of bytes, written with the 256 that a borrow adds. -/
theorem toNat_byte_sub (a b : Byte) : (a - b).toNat = (a.toNat + 256 - b.toNat) % 256 := by
  rw [BitVec.toNat_sub]
  omega

/-- Settles O27: both instructions are one subtraction, with the operands exchanged. -/
theorem subtractLeavesTheNoBorrowFlag : Obligations.SubtractLeavesTheNoBorrowFlag := by
  intro s x y
  exact ⟨completes_of_setReg_setFlag rfl (toNat_byte_sub _ _) (toNat_flagByte_decide _),
    completes_of_setReg_setFlag rfl (toNat_byte_sub _ _) (toNat_flagByte_decide _)⟩

/-- Settles O28: a shift by one is a division or a multiplication by 2, and `y` is read by neither. -/
theorem shiftsLeaveTheBitShiftedOut : Obligations.ShiftsLeaveTheBitShiftedOut := by
  intro s x y
  have hright : (s.reg x >>> 1).toNat = (s.reg x).toNat / 2 := BitVec.toNat_ushiftRight _ _
  have hleft : (s.reg x <<< 1).toNat = (s.reg x).toNat * 2 % 256 := by
    rw [BitVec.toNat_shiftLeft, Nat.shiftLeft_eq, Nat.pow_one]
  exact ⟨completes_of_setReg_setFlag rfl hright (toNat_flagByte_lowBit _),
    completes_of_setReg_setFlag rfl hleft (toNat_flagByte_highBit _)⟩

end Sys2Proof.Machine
end

section
/-! PROOFS. The index and memory family (42_index_memory.md): the stores. A store is one checked write of several bytes at
`I`; what the check answers is said once by where the bytes lie, and what the instruction then does once for every list of
bytes. -/

namespace Sys2Proof.Machine

/-! ### Where the bytes of a store lie (20_memory.md R85, 60_exceptions.md R273) -/

theorem memWriteBytes_of_writable {m : Memory} {a : Nat} {bytes : List Byte} (hfont : 80 ≤ a)
    (hend : a + bytes.length ≤ 4096) : memWriteBytes m a bytes = .ok (m.writeBytes a bytes) :=
  memWriteBytes_eq_ok.2 ⟨fun k hk => by omega, rfl⟩

/-- The first byte decides where it lies in the font region. -/
theorem memWriteBytes_of_readOnly {m : Memory} {a : Nat} {bytes : List Byte} (hpos : 0 < bytes.length) (hfont : a < 80) :
    memWriteBytes m a bytes = .error (.readOnlyWrite a) :=
  memWriteBytes_eq_error.2 ⟨0, hpos, checkWrite_eq_error.2 (.inr ⟨hfont, rfl⟩), fun _ hj => absurd hj (Nat.not_lt_zero _)⟩

/-- A store that begins past the font region and runs past memory stops at the first byte outside, `4096 - a` bytes on. -/
theorem memWriteBytes_of_outside {m : Memory} {a : Nat} {bytes : List Byte} (hpos : 0 < bytes.length) (hfont : 80 ≤ a)
    (hend : 4096 < a + bytes.length) : memWriteBytes m a bytes = .error (.addressOutOfRange (firstOutside a)) := by
  have hfirst : a + (4096 - a) = firstOutside a := add_tsub_eq_max
  refine memWriteBytes_eq_error.2 ⟨4096 - a, by omega, ?_, fun j hj => by omega⟩
  exact checkWrite_eq_error.2 (.inl ⟨by omega, congrArg _ hfirst.symm⟩)

/-! ### What a store instruction does (42_index_memory.md R223, R224) -/

/-- An instruction that stores bytes at `I`. -/
def StoresBytes (i : Instr) (s : State) (bytes : List Byte) : Prop :=
  exec i s = attempt s (memWriteBytes s.mem (s.byteAddr 0) bytes) fun m => complete (s.advance.setMem m)

theorem storesBytes_bcd (x : Nibble) (s : State) : StoresBytes (.bcd x) s (bcdDigits (s.reg x)) := rfl

/-- A store whose bytes all lie in writable memory leaves them at `I` upward, moves `pc` by 2 and changes nothing else. -/
theorem StoresBytes.completes {i : Instr} {s : State} {bytes : List Byte} (h : StoresBytes i s bytes)
    (hcanonical : s.MemoryCanonical) (hfont : 80 ≤ s.byteAddr 0) (hend : s.byteAddr 0 + bytes.length ≤ 4096) :
    Completes i s fun t => (∀ k, ∀ hk : k < bytes.length, t.mem.byteAt (s.byteAddr k) = bytes[k]) ∧
      SameMemoryBut s t (s.byteAddr 0) bytes.length ∧ t.pc = s.pc + 2 ∧ SameOutside s t [.memory] := by
  refine ⟨_, h.trans (attempt_eq_next.2 (.inr ⟨_, memWriteBytes_of_writable hfont hend, rfl⟩)), fun k hk => ?_,
    fun b hb => ?_, rfl, (sameOutside_advance s).trans (sameOutside_setMem _ _)⟩
  · exact byteAt_writeBytes_inside hcanonical hend hk
  · exact byteAt_writeBytes_outside hb

/-- A store whose check fails takes the condition. -/
theorem StoresBytes.traps {i : Instr} {s : State} {bytes : List Byte} {e : Fault} (h : StoresBytes i s bytes)
    (hcheck : memWriteBytes s.mem (s.byteAddr 0) bytes = .error e) : Traps i s e :=
  ⟨_, h.trans (attempt_eq_next.2 (.inl ⟨e, hcheck, rfl⟩)), setStatus_status s _⟩

/-! ### `Fx33` (42_index_memory.md R223) -/

@[simp] theorem length_bcdDigits (b : Byte) : (bcdDigits b).length = 3 := rfl

/-- The digits of a byte are below 256, so that the bytes stored are the digits themselves. -/
theorem toNat_bcdDigits (b : Byte) :
    (bcdDigits b)[0].toNat = b.toNat / 100 ∧ (bcdDigits b)[1].toNat = b.toNat / 10 % 10 ∧
      (bcdDigits b)[2].toNat = b.toNat % 10 := by
  have hb : b.toNat < 256 := b.isLt
  refine ⟨?_, ?_, ?_⟩ <;> exact Nat.mod_eq_of_lt (by omega)

/-- Settles O32, by where the three bytes lie: all in writable memory, the first in the font region, or the last outside
memory, where the first is past the font region. -/
theorem bcdStoresTheDecimalDigits : Obligations.BcdStoresTheDecimalDigits := by
  intro s x hcanonical
  have hstore : StoresBytes (.bcd x) s (bcdDigits (s.reg x)) := storesBytes_bcd x s
  have hlast : s.byteAddr 2 = s.byteAddr 0 + 2 := rfl
  have hlength := length_bcdDigits (s.reg x)
  refine ⟨fun hfont hin => ?_, fun hfont => ?_, fun hout => ?_⟩
  · obtain ⟨t, hexec, hbytes, hframe⟩ := hstore.completes hcanonical hfont (by omega)
    obtain ⟨hhundreds, htens, hones⟩ := toNat_bcdDigits (s.reg x)
    refine ⟨t, hexec, ?_, ?_, ?_, hframe⟩
    · rw [hbytes 0 (by simp), hhundreds]
    · rw [hbytes 1 (by simp), htens]
    · rw [hbytes 2 (by simp), hones]
  · exact hstore.traps (memWriteBytes_of_readOnly (by omega) hfont)
  · exact hstore.traps (memWriteBytes_of_outside (by omega) (by omega) (by omega))

end Sys2Proof.Machine
end

section
/-! PROOFS. The display, keypad and timer family (43_io_timers.md): the screen clear, the key read and the timer transfers.
First the frames of the three setters that no family before this one uses, and that a frame may be widened. -/

namespace Sys2Proof.Machine

/-! ### Frames -/

/-- A frame may list more parts than are written, in any order. -/
theorem SameOutside.mono {s t : State} {ps qs : List Part} (h : SameOutside s t ps) (hsub : ps ⊆ qs) :
    SameOutside s t qs := fun p hp => h p fun hmem => hp (hsub hmem)

theorem sameOutside_setScreen (s : State) (f : Screen) : SameOutside s (s.setScreen f) [.screen] := by
  intro p hp
  cases p with
  | screen => simp at hp
  | _ => simp [SamePart]

theorem sameOutside_setDelayTimer (s : State) (b : Byte) : SameOutside s (s.setDelayTimer b) [.delay] := by
  intro p hp
  cases p with
  | delay => simp at hp
  | _ => simp [SamePart]

theorem sameOutside_setSoundTimer (s : State) (b : Byte) : SameOutside s (s.setSoundTimer b) [.sound] := by
  intro p hp
  cases p with
  | sound => simp at hp
  | _ => simp [SamePart]

/-! ### The screen clear (43_io_timers.md R240) -/

/-- Settles O35: `00E0` writes the blank screen after the advance. -/
theorem clearScreenDarkensEveryCell : Obligations.ClearScreenDarkensEveryCell := by
  intro s
  exact ⟨_, rfl, cell_blank, rfl, (sameOutside_advance s).trans (sameOutside_setScreen _ _)⟩

/-! ### The key read (43_io_timers.md R244) -/

/-- A key is below 16, so that the byte holds its number. -/
theorem toNat_keyByte (k : Key) : (keyByte k).toNat = k.val := by
  have hk := k.isLt
  exact Nat.mod_eq_of_lt (by omega)

/-- With a key pending, `Fx0A` clears the latch and leaves the key in `Vx`. -/
theorem exec_keyGet_of_pending {s : State} {k : Key} (x : Nibble) (h : s.latch = some k) :
    exec (.keyGet x) s = .next ((s.advance.setLatch none).setReg x (keyByte k)) := by
  simp [exec, execKeyGet, State.takePendingKey, h, complete]

/-- With no key pending, `Fx0A` answers the state it was given, the advance undone. -/
theorem exec_keyGet_of_none {s : State} (x : Nibble) (h : s.latch = none) : exec (.keyGet x) s = .next s := by
  simp [exec, execKeyGet, State.takePendingKey, h, retry]

/-- Settles O39, by whether a key is pending: a consumed key is a write of the latch and then of `Vx`. -/
theorem keyGetConsumesTheLatch : Obligations.KeyGetConsumesTheLatch := by
  intro s x
  constructor
  · intro k hpending
    have hframe := ((sameOutside_advance s).trans (sameOutside_setLatch _ none)).trans (sameOutside_setReg _ x (keyByte k))
    refine ⟨_, exec_keyGet_of_pending x hpending, ?_, rfl, fun r hr => ?_, rfl, hframe.mono (by decide)⟩
    · simp [toNat_keyByte]
    · simp [List.ne_of_not_mem_cons hr]
  · exact exec_keyGet_of_none x

/-! ### The timer transfers (43_io_timers.md R246 to R248, R251) -/

theorem soundActive_iff {s : State} : s.soundActive = true ↔ s.st ≠ 0 := bne_iff_ne

/-- Settles O41: each transfer is one setter after the advance, and the host's read answers `soundActive`. -/
theorem timerTransfers : Obligations.TimerTransfers := by
  intro s x
  refine ⟨completes_of_setReg rfl, ?_, ?_, fun phase => ?_⟩
  · exact ⟨_, rfl, rfl, rfl, (sameOutside_advance s).trans (sameOutside_setDelayTimer _ _)⟩
  · exact ⟨_, rfl, rfl, soundActive_iff, rfl, (sameOutside_advance s).trans (sameOutside_setSoundTimer _ _)⟩
  · exact ⟨_, transact_readSoundActive ⟨s, phase⟩, soundActive_iff⟩

end Sys2Proof.Machine
end

section
/-! PROOFS. The exception family (60_exceptions.md): the fetch of a word no row matches. -/

namespace Sys2Proof.Machine

/-! ### Unrecognized words (60_exceptions.md R264) -/

/-- A word that decodes to no instruction matches no row. -/
theorem decodeRow_eq_none_of_decode_ne_ok {w : Word} (h : ∀ i, decode w ≠ .ok i) : decodeRow w = none :=
  Option.eq_none_iff_forall_ne_some.2 fun i hi => h i (decode_eq_ok.2 hi)

/-- A running core that fetches a word no row matches takes the condition with that word and writes nothing else. -/
theorem step_of_unrecognized {s : State} {w : Word} (hs : s.status = .running) (hf : fetch s = .ok w)
    (hn : decodeRow w = none) : step s = .next (s.setStatus (.faulted (.unrecognizedOpcode w))) :=
  step_eq_next.2 ⟨hs, .inr (.inl ⟨w, hf, hn, rfl⟩)⟩

/-- Settles O9: such a word matches no row, so that the decode of the step raises with it. -/
theorem unrecognizedWordIsFatal : Obligations.UnrecognizedWordIsFatal := by
  intro s w hrunning hfetch hdecode
  exact ⟨_, step_of_unrecognized hrunning hfetch (decodeRow_eq_none_of_decode_ne_ok hdecode), setStatus_status s _⟩

end Sys2Proof.Machine
end

section
/-! PROOFS. The encoding family (30_encoding.md): decoding an encoded instruction, encoding a decoded word, the words no row
matches, the match and mask columns of the opcode table, and the mnemonics. -/

namespace Sys2Proof

open Machine

/-! ### Decoding an encoded instruction -/

/-- The decoder answers the instruction a word was encoded from; the constructors are grouped by the layout of their row
(30_encoding.md R121, R125). -/
theorem decodeRow_encode {i : Instr} (h : i.wf = true) : decodeRow (encode i) = some i := by
  cases i with
  | clearScreen | ret => rfl
  | sysAddr nnn =>
    have hne : nnn ≠ 0x0E0 ∧ nnn ≠ 0x0EE := by simpa [Instr.wf] using h
    have hfield : fieldNNN (wordNNN 0x0 nnn) = nnn := fieldNNN_wordNNN (by decide) nnn
    have hE0 : wordNNN 0x0 nnn ≠ 0x00E0 := fun he => hne.1 (hfield ▸ congrArg fieldNNN he)
    have hEE : wordNNN 0x0 nnn ≠ 0x00EE := fun he => hne.2 (hfield ▸ congrArg fieldNNN he)
    rw [encode, decodeRow_0 (nibbleA_wordNNN (by decide) nnn), decodeSystem, if_neg hE0, if_neg hEE, hfield]
  | jump _ | call _ | loadIndex _ | jumpV0 _ => simp [encode, decodeRow_1, decodeRow_2, decodeRow_A, decodeRow_B]
  | skipEqByte _ _ | skipNeByte _ _ | loadByte _ _ | addByte _ _ | rand _ _ =>
    simp [encode, decodeRow_3, decodeRow_4, decodeRow_6, decodeRow_7, decodeRow_C]
  | skipEqReg _ _ | skipNeReg _ _ | draw _ _ _ => simp [encode, decodeRow_5, decodeRow_9, decodeRow_D]
  | loadReg _ _ | orReg _ _ | andReg _ _ | xorReg _ _ | mathAdd _ _ | mathSub _ _ | shiftRight _ _ | mathSubN _ _
  | shiftLeft _ _ => simp [encode, decodeRow_8, decodeMath]
  | skipKeyPressed _ | skipKeyNotPressed _ => simp [encode, decodeRow_E, decodeKey]
  | loadDelay _ | keyGet _ | setDelay _ | setSound _ | addIndex _ | fontGlyph _ | bcd _ | regDump _ | regLoad _ =>
    simp [encode, decodeRow_F, decodeMisc]

/-- Settles O2: at the default `ABSENT_ROWS` the decoder is `decodeRow`, which recovers every operand. -/
theorem decodeOfEncodeIsTheInstruction : Obligations.DecodeOfEncodeIsTheInstruction := by
  intro i hwf
  exact decode_eq_ok.2 (decodeRow_encode hwf)

/-! ### A word from its fields (30_encoding.md R121) -/

theorem wordNNN_fieldNNN {w : Word} {a : Nat} (ha : a < 16) (h : nibbleA w = BitVec.ofNat 4 a) :
    wordNNN a (fieldNNN w) = w := by
  have hw := w.isLt
  have hA := congrArg BitVec.toNat h
  rw [toNat_nibbleA, BitVec.toNat_ofNat] at hA
  apply BitVec.eq_of_toNat_eq
  rw [toNat_wordNNN ha, toNat_fieldNNN]
  omega

theorem wordXKK_fields {w : Word} {a : Nat} (ha : a < 16) (h : nibbleA w = BitVec.ofNat 4 a) :
    wordXKK a (nibbleB w) (fieldKK w) = w := by
  have hw := w.isLt
  have hA := congrArg BitVec.toNat h
  rw [toNat_nibbleA, BitVec.toNat_ofNat] at hA
  apply BitVec.eq_of_toNat_eq
  rw [toNat_wordXKK ha, toNat_nibbleB, toNat_fieldKK]
  omega

theorem wordXYN_nibbles {w : Word} {a : Nat} (ha : a < 16) (h : nibbleA w = BitVec.ofNat 4 a) :
    wordXYN a (nibbleB w) (nibbleC w) (nibbleD w) = w := by
  have hw := w.isLt
  have hA := congrArg BitVec.toNat h
  rw [toNat_nibbleA, BitVec.toNat_ofNat] at hA
  apply BitVec.eq_of_toNat_eq
  rw [toNat_wordXYN ha, toNat_nibbleB, toNat_nibbleC, toNat_nibbleD]
  omega

/-! ### Encoding a decoded word -/

theorem encode_decodeMath {x y d : Nibble} {i : Instr} (h : decodeMath x y d = some i) :
    encode i = wordXYN 0x8 x y d ∧ i.wf = true := by
  rcases nibble_cases d with rfl | rfl | rfl | rfl | rfl | rfl | rfl | rfl | rfl | rfl | rfl | rfl | rfl | rfl | rfl | rfl <;>
    cases h <;> exact ⟨rfl, rfl⟩

theorem encode_decodeKey {x : Nibble} {kk : Byte} {i : Instr} (h : decodeKey x kk = some i) :
    encode i = wordXKK 0xE x kk ∧ i.wf = true := by
  simp only [decodeKey, ite_eq_iff, Option.some.injEq, reduceCtorEq, and_false, or_false] at h
  obtain ⟨rfl, rfl⟩ | ⟨-, ⟨rfl, rfl⟩⟩ := h <;> exact ⟨rfl, rfl⟩

theorem encode_decodeMisc {x : Nibble} {kk : Byte} {i : Instr} (h : decodeMisc x kk = some i) :
    encode i = wordXKK 0xF x kk ∧ i.wf = true := by
  simp only [decodeMisc, ite_eq_iff, Option.some.injEq, reduceCtorEq, and_false, or_false] at h
  obtain ⟨rfl, rfl⟩ | ⟨-, ⟨rfl, rfl⟩ | ⟨-, ⟨rfl, rfl⟩ | ⟨-, ⟨rfl, rfl⟩ | ⟨-, ⟨rfl, rfl⟩ | ⟨-, ⟨rfl, rfl⟩ |
    ⟨-, ⟨rfl, rfl⟩ | ⟨-, ⟨rfl, rfl⟩ | ⟨-, ⟨rfl, rfl⟩⟩⟩⟩⟩⟩⟩⟩⟩ := h <;> exact ⟨rfl, rfl⟩

/-- A word of the group 0 other than its two single words is `0nnn`, and its address is neither of theirs. -/
theorem encode_decodeSystem {w : Word} (h : nibbleA w = 0x0) :
    encode (decodeSystem w) = w ∧ (decodeSystem w).wf = true := by
  have hw : wordNNN 0x0 (fieldNNN w) = w := wordNNN_fieldNNN (by decide) h
  unfold decodeSystem
  split_ifs with hE0 hEE
  · exact ⟨hE0.symm, rfl⟩
  · exact ⟨hEE.symm, rfl⟩
  · have hne : fieldNNN w ≠ 0x0E0 ∧ fieldNNN w ≠ 0x0EE :=
      ⟨fun he => hE0 (hw ▸ he ▸ rfl), fun he => hEE (hw ▸ he ▸ rfl)⟩
    exact ⟨hw, by simpa [Instr.wf] using hne⟩

/-- What the decoder answers for a word is an instruction whose word it is, by the leading nibble. -/
theorem encode_of_decodeRow {w : Word} {i : Instr} (hi : decodeRow w = some i) : encode i = w ∧ i.wf = true := by
  have hanswer {j : Instr} (hj : decodeRow w = some j) (hw : encode j = w ∧ j.wf = true) :
      encode i = w ∧ i.wf = true := Option.some.inj (hj.symm.trans hi) ▸ hw
  rcases nibble_cases (nibbleA w) with h | h | h | h | h | h | h | h | h | h | h | h | h | h | h | h
  · exact hanswer (decodeRow_0 h) (encode_decodeSystem h)
  · exact hanswer (decodeRow_1 h) ⟨wordNNN_fieldNNN (by decide) h, rfl⟩
  · exact hanswer (decodeRow_2 h) ⟨wordNNN_fieldNNN (by decide) h, rfl⟩
  · exact hanswer (decodeRow_3 h) ⟨wordXKK_fields (by decide) h, rfl⟩
  · exact hanswer (decodeRow_4 h) ⟨wordXKK_fields (by decide) h, rfl⟩
  · obtain ⟨hd, rfl⟩ : nibbleD w = 0 ∧ .skipEqReg _ _ = i := by simpa [decodeRow_5 h] using hi
    exact ⟨(congrArg (wordXYN 0x5 _ _) hd.symm).trans (wordXYN_nibbles (by decide) h), rfl⟩
  · exact hanswer (decodeRow_6 h) ⟨wordXKK_fields (by decide) h, rfl⟩
  · exact hanswer (decodeRow_7 h) ⟨wordXKK_fields (by decide) h, rfl⟩
  · obtain ⟨hword, hwf⟩ := encode_decodeMath (decodeRow_8 h ▸ hi)
    exact ⟨hword.trans (wordXYN_nibbles (by decide) h), hwf⟩
  · obtain ⟨hd, rfl⟩ : nibbleD w = 0 ∧ .skipNeReg _ _ = i := by simpa [decodeRow_9 h] using hi
    exact ⟨(congrArg (wordXYN 0x9 _ _) hd.symm).trans (wordXYN_nibbles (by decide) h), rfl⟩
  · exact hanswer (decodeRow_A h) ⟨wordNNN_fieldNNN (by decide) h, rfl⟩
  · exact hanswer (decodeRow_B h) ⟨wordNNN_fieldNNN (by decide) h, rfl⟩
  · exact hanswer (decodeRow_C h) ⟨wordXKK_fields (by decide) h, rfl⟩
  · exact hanswer (decodeRow_D h) ⟨wordXYN_nibbles (by decide) h, rfl⟩
  · obtain ⟨hword, hwf⟩ := encode_decodeKey (decodeRow_E h ▸ hi)
    exact ⟨hword.trans (wordXKK_fields (by decide) h), hwf⟩
  · obtain ⟨hword, hwf⟩ := encode_decodeMisc (decodeRow_F h ▸ hi)
    exact ⟨hword.trans (wordXKK_fields (by decide) h), hwf⟩

/-- Settles O3: the decoder is `decodeRow`, and no row drops a bit of its word. -/
theorem encodeOfDecodeIsTheWord : Obligations.EncodeOfDecodeIsTheWord := by
  intro w i hi
  exact encode_of_decodeRow (decode_eq_ok.1 hi)

/-! ### Unrecognized words (30_encoding.md R127) -/

theorem decodeMath_eq_none {x y d : Nibble} :
    decodeMath x y d = none ↔ d.toNat ∈ [0x8, 0x9, 0xA, 0xB, 0xC, 0xD, 0xF] := by
  rcases nibble_cases d with h | h | h | h | h | h | h | h | h | h | h | h | h | h | h | h <;> subst d <;>
    simp [decodeMath]

theorem decodeKey_eq_none {x : Nibble} {kk : Byte} : decodeKey x kk = none ↔ kk.toNat ∉ [0x9E, 0xA1] := by
  simp [decodeKey, ite_eq_iff, ← BitVec.toNat_inj]

theorem decodeMisc_eq_none {x : Nibble} {kk : Byte} :
    decodeMisc x kk = none ↔ kk.toNat ∉ [0x07, 0x0A, 0x15, 0x18, 0x1E, 0x29, 0x33, 0x55, 0x65] := by
  simp [decodeMisc, ite_eq_iff, ← BitVec.toNat_inj]

/-- The rows that do not recognize all words of their leading nibble are those of 5, 8, 9, E and F. -/
theorem decodeRow_eq_none {w : Word} : decodeRow w = none ↔ UnrecognizedPattern w := by
  rcases nibble_cases (nibbleA w) with h | h | h | h | h | h | h | h | h | h | h | h | h | h | h | h <;>
    simp [decodeRow, UnrecognizedPattern, h, decodeMath_eq_none, decodeKey_eq_none, decodeMisc_eq_none]

/-- Settles O5: the decoder fails on the words no row matches, and with no other error. -/
theorem unrecognizedWordsAreTheFivePatterns : Obligations.UnrecognizedWordsAreTheFivePatterns := by
  intro w
  simp [decode_eq_error, decodeRow_eq_none]

/-! ### The match and mask columns (30_encoding.md R125) -/

@[simp] theorem nibbleA_ofNat (n : Nat) : nibbleA (BitVec.ofNat 16 n) = BitVec.ofNat 4 (n / 4096) := by
  apply BitVec.eq_of_toNat_eq
  rw [toNat_nibbleA, BitVec.toNat_ofNat, BitVec.toNat_ofNat]
  omega

@[simp] theorem nibbleB_ofNat (n : Nat) : nibbleB (BitVec.ofNat 16 n) = BitVec.ofNat 4 (n / 256) := by
  apply BitVec.eq_of_toNat_eq
  rw [toNat_nibbleB, BitVec.toNat_ofNat, BitVec.toNat_ofNat]
  omega

@[simp] theorem nibbleC_ofNat (n : Nat) : nibbleC (BitVec.ofNat 16 n) = BitVec.ofNat 4 (n / 16) := by
  apply BitVec.eq_of_toNat_eq
  rw [toNat_nibbleC, BitVec.toNat_ofNat, BitVec.toNat_ofNat]
  omega

@[simp] theorem nibbleD_ofNat (n : Nat) : nibbleD (BitVec.ofNat 16 n) = BitVec.ofNat 4 n := by
  apply BitVec.eq_of_toNat_eq
  rw [toNat_nibbleD, BitVec.toNat_ofNat, BitVec.toNat_ofNat]
  omega

theorem word_eq_iff_nibbles {w v : Word} :
    w = v ↔ nibbleA w = nibbleA v ∧ nibbleB w = nibbleB v ∧ nibbleC w = nibbleC v ∧ nibbleD w = nibbleD v := by
  refine ⟨fun h => h ▸ ⟨rfl, rfl, rfl, rfl⟩, fun ⟨hA, hB, hC, hD⟩ => BitVec.eq_of_toNat_eq ?_⟩
  have hw := w.isLt
  have hv := v.isLt
  simp only [← BitVec.toNat_inj, toNat_nibbleA, toNat_nibbleB, toNat_nibbleC, toNat_nibbleD] at hA hB hC hD
  omega

theorem fieldKK_eq_iff_nibbles {w : Word} {kk : Byte} :
    fieldKK w = kk ↔ nibbleC w = BitVec.ofNat 4 (kk.toNat / 16) ∧ nibbleD w = BitVec.ofNat 4 kk.toNat := by
  have := kk.isLt
  simp only [← BitVec.toNat_inj, toNat_nibbleC, toNat_nibbleD, toNat_fieldKK, BitVec.toNat_ofNat]
  omega

@[simp] theorem nibbleC_wordXKK {a : Nat} (h : a < 16) (x : Nibble) (kk : Byte) :
    nibbleC (wordXKK a x kk) = BitVec.ofNat 4 (kk.toNat / 16) :=
  (fieldKK_eq_iff_nibbles.1 (fieldKK_wordXKK h x kk)).1

@[simp] theorem nibbleD_wordXKK {a : Nat} (h : a < 16) (x : Nibble) (kk : Byte) :
    nibbleD (wordXKK a x kk) = BitVec.ofNat 4 kk.toNat :=
  (fieldKK_eq_iff_nibbles.1 (fieldKK_wordXKK h x kk)).2

/-- A word selects a row nibble by nibble. -/
theorem selects_iff_nibbles {r : OpRow} {w : Word} :
    r.selects w = true ↔
      (nibbleA w &&& nibbleA r.mask = nibbleA r.pattern ∧ nibbleB w &&& nibbleB r.mask = nibbleB r.pattern ∧
        nibbleC w &&& nibbleC r.mask = nibbleC r.pattern ∧ nibbleD w &&& nibbleD r.mask = nibbleD r.pattern) ∧
      w ∉ r.excludes := by
  rw [OpRow.selects, Bool.and_eq_true, beq_iff_eq, word_eq_iff_nibbles]
  simp [nibbleA, nibbleB, nibbleC, nibbleD, BitVec.extractLsb'_and]

/-- Under the mask nibble F a nibble is itself. -/
theorem nibble_and_15 (n : Nibble) : n &&& 15#4 = n := BitVec.and_allOnes

/-- Row n stands at place n of the table. -/
theorem opcodeTable_number : ∀ r ∈ opcodeTable, opcodeTable[r.number - 1]? = some r := by decide

/-- The word of a well-formed instruction selects the row of the instruction; that of `0nnn` is not excluded from its row,
since it decodes to `0nnn` again. -/
theorem selects_encode {i : Instr} {r : OpRow} (h : i.wf = true) (hr : opcodeTable[i.row - 1]? = some r) :
    r.selects (encode i) = true := by
  rw [selects_iff_nibbles]
  cases i with
  | clearScreen | ret => cases hr; decide
  | sysAddr nnn =>
    cases hr
    have hdecode := decodeRow_encode h
    have hE0 : encode (.sysAddr nnn) ≠ 0x00E0 := fun he => by rw [he] at hdecode; cases hdecode
    have hEE : encode (.sysAddr nnn) ≠ 0x00EE := fun he => by rw [he] at hdecode; cases hdecode
    exact ⟨by simp [encode], by simpa using ⟨hE0, hEE⟩⟩
  | _ => cases hr; simp [encode, nibble_and_15]

/-- A word that selects a row decodes to an instruction of that row: rows 1 and 2 are single words, and in every other row
the fixed nibbles are those the decoder looks at. -/
theorem decodes_of_selects {w : Word} {r : OpRow} (hr : r ∈ opcodeTable) (h : r.selects w = true) :
    ∃ i, decodeRow w = some i ∧ i.row = r.number := by
  rw [selects_iff_nibbles] at h
  simp only [opcodeTable, opcodeRowsA, opcodeRowsB, opcodeRowsC, List.mem_append, List.mem_cons, List.not_mem_nil,
    or_false] at hr
  obtain (hr | hr) | hr := hr
  · obtain rfl | rfl | hr := hr
    · obtain rfl : w = 0x00E0 := word_eq_iff_nibbles.2 (by simpa [nibble_and_15] using h)
      exact ⟨.clearScreen, rfl, rfl⟩
    · obtain rfl : w = 0x00EE := word_eq_iff_nibbles.2 (by simpa [nibble_and_15] using h)
      exact ⟨.ret, rfl, rfl⟩
    · rcases hr with rfl | rfl | rfl | rfl | rfl | rfl | rfl | rfl <;> simp [nibble_and_15] at h <;>
        simp [decodeRow, decodeSystem, h, Instr.row]
  · rcases hr with rfl | rfl | rfl | rfl | rfl | rfl | rfl | rfl | rfl | rfl <;> simp [nibble_and_15] at h <;>
      simp [decodeRow_8, decodeRow_9, decodeMath, h, Instr.row]
  · rcases hr with rfl | rfl | rfl | rfl | rfl | rfl | rfl | rfl | rfl | rfl | rfl | rfl | rfl | rfl | rfl <;>
      simp [nibble_and_15] at h <;>
      simp [decodeRow_A, decodeRow_B, decodeRow_C, decodeRow_D, decodeRow_E, decodeRow_F, decodeKey, decodeMisc,
        fieldKK_eq_iff_nibbles, h, Instr.row]

/-- Settles O4: a word that selects a row decodes to its number, and one that decodes to an instruction of the row is its
word, which selects the row. -/
theorem decodeSelectsTheTableRow : Obligations.DecodeSelectsTheTableRow := by
  intro w r hr
  simp only [decode_eq_ok]
  constructor
  · exact decodes_of_selects hr
  · rintro ⟨i, hi, hnumber⟩
    obtain ⟨rfl, hwf⟩ := encode_of_decodeRow hi
    exact selects_encode hwf (hnumber ▸ opcodeTable_number r hr)

/-! ### Fixed words and mnemonics (30_encoding.md R125, R131) -/

/-- Settles O1: the decoder evaluates on each of the sixteen words. -/
theorem wordsDecodeAsWritten : Obligations.WordsDecodeAsWritten := by
  exact ⟨rfl, rfl, rfl, rfl, rfl, rfl, rfl, rfl, rfl, rfl, rfl, rfl, rfl, rfl, rfl, rfl⟩

/-- The characters before the first space are the mnemonic, whether operands follow it or not. -/
theorem mnemonicPrefix_disassemble (i : Instr) : mnemonicPrefix (disassemble i) = i.mnemonic := by
  have hspace : ∀ c ∈ i.mnemonic.toList, (c != ' ') = true := by cases i <;> simp [Instr.mnemonic]
  unfold disassemble
  split
  · rw [mnemonicPrefix, List.takeWhile_eq_self_iff.2 hspace, String.ofList_toList]
  · simp [mnemonicPrefix, List.takeWhile_append_of_pos hspace]

/-- Settles O6: the mnemonic comes back, and the 35 names are distinct and in the order of the rows. -/
theorem mnemonicPrefixRecoversTheVariant : Obligations.MnemonicPrefixRecoversTheVariant := by
  intro i
  rw [mnemonicPrefix_disassemble]
  cases i <;> rfl

end Sys2Proof
end

section
/-! PROOFS. What an instruction can do, once for all of them: it ends in a next state, either with a condition taken or with
everything but its own parts unchanged, and where it leaves `pc`. The invariants and the rules about named writers rest on
these. -/

namespace Sys2Proof.Machine

/-- The parts of the state an instruction may write (10_state.md R32 to R46). -/
def writtenParts : Instr → List Part
  | .clearScreen => [.screen]
  | .call _ | .ret => [.stack]
  | .sysAddr _ | .jump _ | .jumpV0 _ | .skipEqByte _ _ | .skipNeByte _ _ | .skipEqReg _ _ | .skipNeReg _ _ => []
  | .skipKeyPressed _ | .skipKeyNotPressed _ => []
  | .loadByte _ _ | .addByte _ _ | .loadReg _ _ | .orReg _ _ | .andReg _ _ | .xorReg _ _ => [.regs]
  | .mathAdd _ _ | .mathSub _ _ | .shiftRight _ _ | .mathSubN _ _ | .shiftLeft _ _ => [.regs]
  | .loadDelay _ | .regLoad _ => [.regs]
  | .rand _ _ => [.regs, .random]
  | .draw _ _ _ => [.regs, .screen]
  | .keyGet _ => [.regs, .latch]
  | .loadIndex _ | .addIndex _ | .fontGlyph _ => [.index]
  | .setDelay _ => [.delay]
  | .setSound _ => [.sound]
  | .bcd _ | .regDump _ => [.memory]

/-- The addresses an instruction may leave in `pc` when it takes no condition (40_control_flow.md R150 to R162). -/
inductive NextPc (s : State) : Word → Prop where
  | waits : NextPc s s.pc
  | next : NextPc s (s.pc + 2)
  | skips : NextPc s (s.pc + 4)
  | jumps (nnn : Addr12) : NextPc s (zextAddr nnn)
  | jumpsFromV0 (nnn : Addr12) : NextPc s (zextAddr nnn + zextByte (s.reg 0))
  | returns (k : Fin 16) : NextPc s (s.stack[k.val]'k.isLt)

/-- What every instruction does that takes no condition: it writes its own parts alone, and memory that it does not write is
the same list. -/
structure Ran (i : Instr) (s t : State) : Prop where
  frame : SameOutside s t (writtenParts i)
  mem : .memory ∉ writtenParts i → t.mem = s.mem
  pc : NextPc s t.pc

theorem sameOutside_refl (s : State) (ps : List Part) : SameOutside s s ps := by
  intro p _
  cases p <;> simp [SamePart]

theorem sameOutside_setIndex (s : State) (a : Word) : SameOutside s (s.setIndex a) [.index] := by
  intro p hp
  cases p with
  | index => simp at hp
  | _ => simp [SamePart]

theorem sameOutside_setRandom (s : State) (bytes : List Byte) (n : Nat) :
    SameOutside s (s.setRandom bytes n) [.random] := by
  intro p hp
  cases p with
  | random => simp at hp
  | _ => simp [SamePart]

theorem sameOutside_loadRegs (s : State) (k : Nat) (bytes : List Byte) :
    SameOutside s (s.loadRegs k bytes) [.regs] := by
  obtain ⟨v, hv⟩ := loadRegs_eq s k bytes
  rw [hv]
  intro p hp
  cases p with
  | regs => simp at hp
  | _ => simp [SamePart]

@[simp] theorem loadRegs_mem (s : State) (k : Nat) (bytes : List Byte) : (s.loadRegs k bytes).mem = s.mem := by
  obtain ⟨v, hv⟩ := loadRegs_eq s k bytes
  rw [hv]

@[simp] theorem loadRegs_pc (s : State) (k : Nat) (bytes : List Byte) : (s.loadRegs k bytes).pc = s.pc := by
  obtain ⟨v, hv⟩ := loadRegs_eq s k bytes
  rw [hv]

theorem nextPc_advanceSkipping (s : State) (c : Bool) : NextPc s (s.advanceSkipping c).pc := by
  rw [advanceSkipping_pc]
  cases c
  · exact .next
  · exact .skips

theorem exec_next_unique {i : Instr} {s t u : State} (ht : exec i s = .next t) (hu : exec i s = .next u) : t = u :=
  Host.Outcome.next.inj (ht.symm.trans hu)

/-- A checked instruction took the condition of its check, or ran on what the check answered. -/
theorem raised_or_ran_of_attempt {α : Type} {i : Instr} {s t : State} {r : Except Fault α} {k : α → Result}
    (h : attempt s r k = .next t) (hran : ∀ a, r = .ok a → k a = .next t → Ran i s t) :
    (∃ e, t = s.setStatus (.faulted e)) ∨ Ran i s t := by
  obtain ⟨e, -, rfl⟩ | ⟨a, hr, hk⟩ := attempt_eq_next.1 h
  · exact .inl ⟨e, rfl⟩
  · exact .inr (hran a hr hk)

/-- An instruction that ends in a next state took a condition, which writes `Status` alone, or ran. -/
theorem exec_eq_next_cases {i : Instr} {s t : State} (h : exec i s = .next t) :
    (∃ e, t = s.setStatus (.faulted e)) ∨ Ran i s t := by
  cases i with
  | sysAddr nnn =>
    obtain rfl := raise_eq_next.1 h
    exact .inl ⟨_, rfl⟩
  | jump nnn =>
    obtain rfl := complete_eq_next.1 h
    exact .inr ⟨(sameOutside_advance s).setPc, fun _ => rfl, .jumps nnn⟩
  | jumpV0 nnn =>
    obtain rfl := complete_eq_next.1 h
    exact .inr ⟨(sameOutside_advance s).setPc, fun _ => rfl, .jumpsFromV0 nnn⟩
  | call nnn =>
    refine raised_or_ran_of_attempt h fun s' hpush hnext => ?_
    obtain ⟨hroom, rfl⟩ := push_eq_ok.1 hpush
    obtain rfl := complete_eq_next.1 hnext
    exact ⟨((sameOutside_advance s).trans (sameOutside_setSlot_setSp _ _ _ _)).setPc, fun _ => rfl, .jumps nnn⟩
  | ret =>
    refine raised_or_ran_of_attempt h fun (target, s') hpop hnext => ?_
    obtain ⟨hheld, rfl, rfl⟩ := pop_eq_ok.1 hpop
    obtain rfl := complete_eq_next.1 hnext
    exact ⟨((sameOutside_advance s).trans (sameOutside_setSp _ _)).setPc, fun _ => rfl,
      .returns ⟨s.sp.val - 1, by have := s.sp.isLt; omega⟩⟩
  | skipEqByte _ _ | skipNeByte _ _ | skipEqReg _ _ | skipNeReg _ _ =>
    obtain rfl := complete_eq_next.1 h
    exact .inr ⟨sameOutside_advanceSkipping s _, fun _ => advanceSkipping_mem s _, nextPc_advanceSkipping s _⟩
  | skipKeyPressed _ | skipKeyNotPressed _ =>
    refine raised_or_ran_of_attempt h fun k _ hnext => ?_
    obtain rfl := complete_eq_next.1 hnext
    exact ⟨sameOutside_advanceSkipping s _, fun _ => advanceSkipping_mem s _, nextPc_advanceSkipping s _⟩
  | loadByte _ _ | addByte _ _ | loadReg _ _ | orReg _ _ | andReg _ _ | xorReg _ _ | loadDelay _ =>
    obtain rfl := complete_eq_next.1 h
    exact .inr ⟨(sameOutside_advance s).trans (sameOutside_setReg _ _ _), fun _ => rfl, .next⟩
  | mathAdd _ _ | mathSub _ _ | shiftRight _ _ | mathSubN _ _ | shiftLeft _ _ =>
    obtain rfl := complete_eq_next.1 h
    exact .inr ⟨((sameOutside_advance s).trans (sameOutside_setReg _ _ _)).setReg (List.mem_singleton.2 rfl),
      fun _ => rfl, .next⟩
  | rand _ _ =>
    obtain ⟨bytes, n, hrandom⟩ := consumeRandom_eq s.advance
    obtain rfl := complete_eq_next.1 h
    rw [hrandom]
    exact .inr ⟨(((sameOutside_advance s).trans (sameOutside_setRandom _ _ _)).trans (sameOutside_setReg _ _ _)).mono
      (by simp [writtenParts]), fun _ => rfl, .next⟩
  | loadIndex _ | addIndex _ =>
    obtain rfl := complete_eq_next.1 h
    exact .inr ⟨(sameOutside_advance s).trans (sameOutside_setIndex _ _), fun _ => rfl, .next⟩
  | fontGlyph _ =>
    refine raised_or_ran_of_attempt h fun d _ hnext => ?_
    obtain rfl := complete_eq_next.1 hnext
    exact ⟨(sameOutside_advance s).trans (sameOutside_setIndex _ _), fun _ => rfl, .next⟩
  | clearScreen =>
    obtain rfl := complete_eq_next.1 h
    exact .inr ⟨(sameOutside_advance s).trans (sameOutside_setScreen _ _), fun _ => rfl, .next⟩
  | draw _ _ _ =>
    refine raised_or_ran_of_attempt h fun (f, c) _ hnext => ?_
    obtain rfl := complete_eq_next.1 hnext
    exact ⟨(((sameOutside_advance s).trans (sameOutside_setScreen _ _)).mono (by simp [writtenParts])).setReg
      (by simp [writtenParts]), fun _ => rfl, .next⟩
  | keyGet x =>
    cases hlatch : s.latch with
    | none =>
      obtain rfl := exec_next_unique (exec_keyGet_of_none x hlatch) h
      exact .inr ⟨sameOutside_refl _ _, fun _ => rfl, .waits⟩
    | some k =>
      obtain rfl := exec_next_unique (exec_keyGet_of_pending x hlatch) h
      exact .inr ⟨(((sameOutside_advance s).trans (sameOutside_setLatch _ _)).trans (sameOutside_setReg _ _ _)).mono
        (by simp [writtenParts]), fun _ => rfl, .next⟩
  | setDelay _ =>
    obtain rfl := complete_eq_next.1 h
    exact .inr ⟨(sameOutside_advance s).trans (sameOutside_setDelayTimer _ _), fun _ => rfl, .next⟩
  | setSound _ =>
    obtain rfl := complete_eq_next.1 h
    exact .inr ⟨(sameOutside_advance s).trans (sameOutside_setSoundTimer _ _), fun _ => rfl, .next⟩
  | bcd _ | regDump _ =>
    refine raised_or_ran_of_attempt h fun m _ hnext => ?_
    obtain rfl := complete_eq_next.1 hnext
    exact ⟨(sameOutside_advance s).trans (sameOutside_setMem _ _), by simp [writtenParts], .next⟩
  | regLoad _ =>
    refine raised_or_ran_of_attempt h fun bytes _ hnext => ?_
    obtain rfl := complete_eq_next.1 hnext
    exact ⟨(sameOutside_advance s).trans (sameOutside_loadRegs _ _ _), fun _ => loadRegs_mem _ _ _,
      (loadRegs_pc _ _ _).symm ▸ .next⟩

/-- An instruction that ends in a next state leaves a part as it was or is among its writers. -/
theorem exec_part {i : Instr} {s t : State} (h : exec i s = .next t) {p : Part} (hp : p ≠ .status) :
    SamePart s t p ∨ p ∈ writtenParts i := by
  obtain ⟨e, rfl⟩ | hran := exec_eq_next_cases h
  · exact .inl (sameOutside_setStatus s _ p (by simpa using hp))
  · exact (em' (p ∈ writtenParts i)).imp_left (hran.frame p)

theorem exec_mem {i : Instr} {s t : State} (h : exec i s = .next t) : t.mem = s.mem ∨ .memory ∈ writtenParts i := by
  obtain ⟨e, rfl⟩ | hran := exec_eq_next_cases h
  · exact .inl rfl
  · exact (em' (.memory ∈ writtenParts i)).imp_left hran.mem

/-- No instruction writes `Status` but by taking a condition. -/
theorem Ran.status {i : Instr} {s t : State} (h : Ran i s t) : t.status = s.status :=
  h.frame .status (by cases i <;> simp [writtenParts])

/-! ### Every instruction ends in a next state -/

theorem exec_next (i : Instr) (s : State) : ∃ t, exec i s = .next t := by
  cases i with
  | ret | call _ | draw _ _ _ | skipKeyPressed _ | skipKeyNotPressed _ | fontGlyph _ | bcd _ | regDump _ | regLoad _ =>
    exact attempt_next s _ fun _ => ⟨_, rfl⟩
  | keyGet x =>
    cases hlatch : s.latch with
    | none => exact ⟨_, exec_keyGet_of_none x hlatch⟩
    | some k => exact ⟨_, exec_keyGet_of_pending x hlatch⟩
  | _ => exact ⟨_, rfl⟩

/-- A running core ends its step in a next state, whatever it fetches (assumption 2). -/
theorem step_next {s : State} (hs : s.status = .running) : ∃ t, step s = .next t := by
  cases hf : fetch s with
  | error e => exact ⟨_, step_of_fetch_error hs hf⟩
  | ok w =>
    cases hd : decodeRow w with
    | none => exact ⟨_, step_of_unrecognized hs hf hd⟩
    | some i => exact step_of_decode hs hf (decode_eq_ok.2 hd) ▸ exec_next i s

/-- A step that answers a next state took a condition or ran the instruction it fetched. -/
theorem step_eq_next_cases {s t : State} (h : step s = .next t) :
    s.status = .running ∧ ((∃ e, t = s.setStatus (.faulted e)) ∨
      ∃ w i, fetch s = .ok w ∧ decode w = .ok i ∧ exec i s = .next t ∧ Ran i s t) := by
  obtain ⟨hs, ⟨e, -, rfl⟩ | ⟨w, -, -, rfl⟩ | ⟨w, i, hf, hd, h⟩⟩ := step_eq_next.1 h
  · exact ⟨hs, .inl ⟨_, rfl⟩⟩
  · exact ⟨hs, .inl ⟨_, rfl⟩⟩
  · obtain ⟨e, rfl⟩ | hran := exec_eq_next_cases h
    · exact ⟨hs, .inl ⟨e, rfl⟩⟩
    · exact ⟨hs, .inr ⟨w, i, hf, hd, h, hran⟩⟩

end Sys2Proof.Machine
end

section
/-! PROOFS. Two parts of the state that no instruction but the stack's and the sound timer's own looks at: changing them
changes nothing else a step does. -/

namespace Sys2Proof.Machine

/-! ### The sound timer and the stack beside the rest of the state -/

/-- The state with another sound timer and another stack. -/
def State.withHidden (s : State) (b : Byte) (slots : Vector Word 16) : State := { s with st := b, stack := slots }

/-- A next state with the change, and any other outcome as it is. -/
def mapNext (f : State → State) : Result → Result
  | .next t => .next (f t)
  | r => r

theorem setSoundTimer_eq_withHidden (s : State) (b : Byte) : s.setSoundTimer b = s.withHidden b s.stack := rfl

theorem setSlot_eq_withHidden (s : State) (k : Fin 16) (w : Word) :
    s.setSlot k w = s.withHidden s.st (s.stack.set k.val w k.isLt) := rfl

/-- The instructions that read or write the sound timer or the stack. -/
def TouchesHidden : Instr → Prop
  | .call _ | .ret | .setSound _ => True
  | _ => False

/-- A checked operation whose check does not see the change commutes with it. -/
theorem attempt_withHidden {α : Type} (s : State) (r : Except Fault α) {k k' : α → Result} {b : Byte}
    {slots : Vector Word 16} (h : ∀ a, k' a = mapNext (·.withHidden b slots) (k a)) :
    attempt (s.withHidden b slots) r k' = mapNext (·.withHidden b slots) (attempt s r k) := by
  cases r with
  | error e => rfl
  | ok a => exact h a

theorem advanceSkipping_withHidden (s : State) (b : Byte) (slots : Vector Word 16) (c : Bool) :
    (s.withHidden b slots).advanceSkipping c = (s.advanceSkipping c).withHidden b slots := by
  cases c <;> rfl

theorem loadRegs_withHidden (s : State) (b : Byte) (slots : Vector Word 16) (k : Nat) (bytes : List Byte) :
    (s.withHidden b slots).loadRegs k bytes = (s.loadRegs k bytes).withHidden b slots := by
  induction bytes generalizing s k with
  | nil => rfl
  | cons v rest ih =>
    rw [State.loadRegs, State.loadRegs, ← ih]
    split <;> rfl

theorem consumeRandom_withHidden (s : State) (b : Byte) (slots : Vector Word 16) :
    (s.withHidden b slots).consumeRandom = s.consumeRandom.withHidden b slots := by
  unfold State.consumeRandom
  rw [show (s.withHidden b slots).randomIn = s.randomIn from rfl]
  cases s.randomIn <;> rfl

/-- No other instruction sees the change, and each leaves it as it was. -/
theorem exec_withHidden {i : Instr} (hi : ¬TouchesHidden i) (s : State) (b : Byte) (slots : Vector Word 16) :
    exec i (s.withHidden b slots) = mapNext (·.withHidden b slots) (exec i s) := by
  cases i with
  | call _ | ret | setSound _ => exact absurd trivial hi
  | skipEqByte _ _ | skipNeByte _ _ | skipEqReg _ _ | skipNeReg _ _ =>
    exact congrArg complete (advanceSkipping_withHidden s b slots _)
  | skipKeyPressed _ | skipKeyNotPressed _ =>
    exact attempt_withHidden s _ fun k => congrArg complete (advanceSkipping_withHidden s b slots _)
  | draw _ _ _ | fontGlyph _ | bcd _ | regDump _ => exact attempt_withHidden s _ fun _ => rfl
  | regLoad _ =>
    exact attempt_withHidden s _ fun bytes => congrArg complete (loadRegs_withHidden s.advance b slots 0 bytes)
  | keyGet x =>
    cases hlatch : s.latch with
    | none =>
      rw [exec_keyGet_of_none x hlatch, exec_keyGet_of_none x (s := s.withHidden b slots) hlatch, mapNext]
    | some k =>
      rw [exec_keyGet_of_pending x hlatch, exec_keyGet_of_pending x (s := s.withHidden b slots) hlatch]
      rfl
  | rand x kk =>
    exact congrArg (fun u => complete (u.setReg x (s.randomByte &&& kk))) (consumeRandom_withHidden s.advance b slots)
  | _ => rfl

/-- What such an instruction leaves of the sound timer and the stack. -/
theorem hidden_of_exec {i : Instr} (hi : ¬TouchesHidden i) {s t : State} (h : exec i s = .next t) :
    t.st = s.st ∧ t.stack = s.stack ∧ t.sp = s.sp := by
  have hsound : Part.sound ∉ writtenParts i := by cases i <;> simp_all [writtenParts, TouchesHidden]
  have hstack : Part.stack ∉ writtenParts i := by cases i <;> simp_all [writtenParts, TouchesHidden]
  obtain ⟨hsp, hslots⟩ := (exec_part h (by decide)).resolve_right hstack
  exact ⟨(exec_part h (by decide)).resolve_right hsound, hslots, hsp⟩

/-- A step with the change takes the same condition, or runs the same instruction, since a fetch reads neither. -/
theorem step_withHidden {s t : State} (h : step s = .next t) (b : Byte) (slots : Vector Word 16) :
    (∃ e, t = s.setStatus (.faulted e) ∧ step (s.withHidden b slots) = .next (t.withHidden b slots)) ∨
      ∃ i, exec i s = .next t ∧ step (s.withHidden b slots) = exec i (s.withHidden b slots) := by
  obtain ⟨hs, ⟨e, hf, rfl⟩ | ⟨w, hf, hn, rfl⟩ | ⟨w, i, hf, hd, h⟩⟩ := step_eq_next.1 h
  · exact .inl ⟨_, rfl, step_of_fetch_error (s := s.withHidden b slots) hs hf⟩
  · exact .inl ⟨_, rfl, step_of_unrecognized (s := s.withHidden b slots) hs hf hn⟩
  · exact .inr ⟨i, h, step_of_decode (s := s.withHidden b slots) hs hf hd⟩

/-! ### The sound timer (10_state.md R42) -/

theorem exec_call_setSoundTimer {s t : State} {nnn : Addr12} (b : Byte) (h : exec (.call nnn) s = .next t) :
    exec (.call nnn) (s.setSoundTimer b) = .next (t.setSoundTimer b) := by
  obtain hroom | hfull : s.sp.val < 16 ∨ s.sp.val = 16 := by omega
  · obtain rfl := exec_next_unique (exec_call_of_room nnn hroom) h
    exact exec_call_of_room (s := s.setSoundTimer b) nnn hroom
  · obtain rfl := exec_next_unique (exec_call_of_full nnn hfull) h
    exact exec_call_of_full (s := s.setSoundTimer b) nnn hfull

theorem exec_ret_setSoundTimer {s t : State} (b : Byte) (h : exec .ret s = .next t) :
    exec .ret (s.setSoundTimer b) = .next (t.setSoundTimer b) := by
  by_cases hempty : s.sp.val = 0
  · obtain rfl := exec_next_unique (exec_ret_of_empty hempty) h
    exact exec_ret_of_empty (s := s.setSoundTimer b) hempty
  · obtain rfl := exec_next_unique (exec_ret_of_held hempty) h
    exact exec_ret_of_held (s := s.setSoundTimer b) hempty

/-- `Fx18` forgets the change; every other instruction leaves the sound timer as it found it. -/
theorem exec_setSoundTimer {i : Instr} {s t : State} (b : Byte) (h : exec i s = .next t) :
    ∃ b', exec i (s.setSoundTimer b) = .next (t.setSoundTimer b') := by
  by_cases hi : TouchesHidden i
  · cases i with
    | call nnn => exact ⟨b, exec_call_setSoundTimer b h⟩
    | ret => exact ⟨b, exec_ret_setSoundTimer b h⟩
    | setSound x =>
      obtain rfl := complete_eq_next.1 h
      exact ⟨s.reg x, rfl⟩
    | _ => exact hi.elim
  · obtain ⟨-, hstack, -⟩ := hidden_of_exec hi h
    refine ⟨b, ?_⟩
    rw [setSoundTimer_eq_withHidden, exec_withHidden hi, h, mapNext, setSoundTimer_eq_withHidden, hstack]

/-- Settles O52: a condition is taken whatever the sound timer is, and no instruction but `Fx18` sees it. -/
theorem soundTimerIsInvisible : Obligations.SoundTimerIsInvisible := by
  intro s t b h
  obtain ⟨e, rfl, hstep⟩ | ⟨i, hexec, hstep⟩ := step_withHidden h b s.stack
  · exact ⟨b, hstep⟩
  · rw [setSoundTimer_eq_withHidden, hstep]
    exact exec_setSoundTimer b hexec

/-! ### An unused stack slot (10_state.md R40) -/

/-- A call with another value in an unused slot: the slot it pushes into is written over, and any other is still unused. -/
theorem exec_call_setSlot {s t : State} {nnn : Addr12} {k : Fin 16} (w : Word) (hk : s.sp.val ≤ k.val)
    (h : exec (.call nnn) s = .next t) :
    ∃ w', exec (.call nnn) (s.setSlot k w) = .next (t.setSlot k w') ∧ (k.val < t.sp.val → w' = t.stack[k.val]'k.isLt) := by
  have hroom : s.sp.val < 16 := hk.trans_lt k.isLt
  obtain rfl := exec_next_unique (exec_call_of_room nnn hroom) h
  rw [exec_call_of_room (s := s.setSlot k w) nnn hroom]
  by_cases hpushed : s.sp.val = k.val
  · obtain rfl : k = ⟨s.sp.val, hroom⟩ := Fin.ext hpushed.symm
    refine ⟨s.pc + 2, ?_, fun _ => ?_⟩
    · simp [State.setSlot, State.setSp, State.setPc, State.advance]
    · simp
  · refine ⟨w, ?_, fun hused => ?_⟩
    · simp [State.setSlot, State.setSp, State.setPc, State.advance, Vector.set_comm _ _ hpushed]
    · have hbelow : k.val < s.sp.val + 1 := hused
      omega

/-- A return with another value in an unused slot: it reads the slot below `SP`, which is in use. -/
theorem exec_ret_setSlot {s t : State} {k : Fin 16} (w : Word) (hk : s.sp.val ≤ k.val) (h : exec .ret s = .next t) :
    exec .ret (s.setSlot k w) = .next (t.setSlot k w) ∧ t.sp.val ≤ k.val := by
  by_cases hempty : s.sp.val = 0
  · obtain rfl := exec_next_unique (exec_ret_of_empty hempty) h
    exact ⟨exec_ret_of_empty (s := s.setSlot k w) hempty, hk⟩
  · obtain rfl := exec_next_unique (exec_ret_of_held hempty) h
    have hkept : (s.stack.set k.val w k.isLt)[s.sp.val - 1] = s.stack[s.sp.val - 1] :=
      Vector.getElem_set_ne _ _ (by omega)
    rw [exec_ret_of_held (s := s.setSlot k w) hempty]
    simp only [setSlot_stack, setSlot_sp, hkept, setPc_sp, setSp_sp]
    exact ⟨rfl, by omega⟩

/-- Every other instruction leaves the slot and `SP` as it found them. -/
theorem exec_setSlot {i : Instr} {s t : State} {k : Fin 16} (w : Word) (hk : s.sp.val ≤ k.val) (h : exec i s = .next t) :
    ∃ w', exec i (s.setSlot k w) = .next (t.setSlot k w') ∧ (k.val < t.sp.val → w' = t.stack[k.val]'k.isLt) := by
  by_cases hi : TouchesHidden i
  · cases i with
    | call nnn => exact exec_call_setSlot w hk h
    | ret =>
      obtain ⟨h, hsp⟩ := exec_ret_setSlot w hk h
      exact ⟨w, h, fun hused => absurd hused hsp.not_gt⟩
    | setSound x =>
      obtain rfl := complete_eq_next.1 h
      exact ⟨w, rfl, fun hused => absurd hused hk.not_gt⟩
    | _ => exact hi.elim
  · obtain ⟨hst, hstack, hsp⟩ := hidden_of_exec hi h
    refine ⟨w, ?_, fun hused => absurd hused (hsp ▸ hk.not_gt)⟩
    rw [setSlot_eq_withHidden, exec_withHidden hi, h, mapNext, setSlot_eq_withHidden, hst, hstack]

/-- Settles O53: a condition is taken whatever an unused slot holds, and no instruction sees it but a call that writes it. -/
theorem unusedStackSlotsAreInvisible : Obligations.UnusedStackSlotsAreInvisible := by
  intro s t k w hk h
  obtain ⟨e, rfl, hstep⟩ | ⟨i, hexec, hstep⟩ := step_withHidden h s.st (s.stack.set k.val w k.isLt)
  · exact ⟨w, hstep, fun hused => absurd hused hk.not_gt⟩
  · rw [setSlot_eq_withHidden, hstep]
    exact exec_setSlot w hk hexec

end Sys2Proof.Machine
end

section
/-! PROOFS. The invariants (10_state.md R38, 20_memory.md R70, R81): what a step does to memory, to the stack slots and to
`pc`, then that every transaction of the host keeps the invariant of the block and that of the session. -/

namespace Sys2Proof.Machine

/-! ### Memory above the font region (20_memory.md R82, R85) -/

/-- Memory as it was, or after one write that lies in writable memory. -/
def StoredAboveFont (m m' : Memory) : Prop :=
  m' = m ∨ ∃ a bytes, 80 ≤ a ∧ a + bytes.length ≤ 4096 ∧ m' = m.writeBytes a bytes

theorem StoredAboveFont.wf {m m' : Memory} (h : StoredAboveFont m m') (hm : m.wf = true) : m'.wf = true := by
  obtain rfl | ⟨a, bytes, -, hend, rfl⟩ := h
  · exact hm
  · exact wf_writeBytes hm hend

theorem StoredAboveFont.byteAt {m m' : Memory} (h : StoredAboveFont m m') {a : Nat} (ha : a < 80) :
    m'.byteAt a = m.byteAt a := by
  obtain rfl | ⟨b, bytes, hfont, -, rfl⟩ := h
  · rfl
  · exact byteAt_writeBytes_outside (.inl (by omega))

theorem storesBytes_regDump (x : Nibble) (s : State) : StoresBytes (.regDump x) s (s.regsUpTo x) := rfl

/-- The instructions that write memory are the two that store bytes at `I`. -/
theorem storesBytes_of_memory_mem {i : Instr} (h : .memory ∈ writtenParts i) (s : State) :
    ∃ bytes, 0 < bytes.length ∧ StoresBytes i s bytes := by
  cases i with
  | bcd x => exact ⟨_, by simp, storesBytes_bcd x s⟩
  | regDump x => exact ⟨_, by simp [length_regsUpTo], storesBytes_regDump x s⟩
  | _ => simp [writtenParts] at h

theorem StoresBytes.storedAboveFont {i : Instr} {s t : State} {bytes : List Byte} (hstore : StoresBytes i s bytes)
    (hpos : 0 < bytes.length) (h : exec i s = .next t) : StoredAboveFont s.mem t.mem := by
  obtain ⟨e, -, rfl⟩ | ⟨m, hwrite, h⟩ := attempt_eq_next.1 (hstore.symm.trans h)
  · exact .inl rfl
  · obtain ⟨hin, rfl⟩ := memWriteBytes_eq_ok.1 hwrite
    obtain rfl := complete_eq_next.1 h
    have hfirst := hin 0 hpos
    have hlast := hin (bytes.length - 1) (by omega)
    exact .inr ⟨s.byteAddr 0, bytes, by omega, by omega, rfl⟩

/-- What a step does to memory. -/
theorem step_storedAboveFont {s t : State} (h : step s = .next t) : StoredAboveFont s.mem t.mem := by
  obtain ⟨-, ⟨e, rfl⟩ | ⟨w, i, -, -, hexec, hran⟩⟩ := step_eq_next_cases h
  · exact .inl rfl
  · by_cases hmem : .memory ∈ writtenParts i
    · obtain ⟨bytes, hpos, hstore⟩ := storesBytes_of_memory_mem hmem s
      exact hstore.storedAboveFont hpos hexec
    · exact .inl (hran.mem hmem)

/-- Settles O55: the writes of a step lie in memory, and a write keeps the canonical form. -/
theorem stepKeepsMemoryCanonical : Obligations.StepKeepsMemoryCanonical := by
  intro s t hs h
  exact (step_storedAboveFont h).wf hs

/-- Settles O56: the writes of a step lie above the font region. -/
theorem stepKeepsTheFontRegion : Obligations.StepKeepsTheFontRegion := by
  intro s t hs h a ha
  exact ((step_storedAboveFont h).byteAt ha).trans (hs a ha)

/-! ### The program counter and the return addresses (10_state.md R38) -/

/-- A slot holds what it held, or the address after a call. -/
theorem slot_of_exec {i : Instr} {s t : State} (h : exec i s = .next t) (hran : Ran i s t) (k : Fin 16) :
    t.stack[k.val]'k.isLt = s.stack[k.val]'k.isLt ∨ t.stack[k.val]'k.isLt = s.pc + 2 := by
  by_cases hstack : .stack ∈ writtenParts i
  · cases i with
    | ret =>
      by_cases hempty : s.sp.val = 0
      · obtain rfl := exec_next_unique (exec_ret_of_empty hempty) h
        exact .inl rfl
      · obtain rfl := exec_next_unique (exec_ret_of_held hempty) h
        exact .inl rfl
    | call nnn =>
      obtain hroom | hfull : s.sp.val < 16 ∨ s.sp.val = 16 := by omega
      · obtain rfl := exec_next_unique (exec_call_of_room nnn hroom) h
        by_cases hk : s.sp.val = k.val
        · exact .inr (by simp [hk])
        · exact .inl (by simp [Vector.getElem_set_ne _ _ hk])
      · obtain rfl := exec_next_unique (exec_call_of_full nnn hfull) h
        exact .inl rfl
    | _ => simp [writtenParts] at hstack
  · obtain ⟨-, hslots⟩ := hran.frame .stack hstack
    exact .inl (by simp only [hslots])

theorem toNat_zextByte (b : Byte) : (zextByte b).toNat = b.toNat :=
  BitVec.toNat_setWidth_of_le (by decide)

/-- From the address of a fetched instruction, and with bounded return addresses, `pc` goes at most to 0xFFF + 0xFF. -/
theorem NextPc.toNat_le {s : State} {a : Word} (h : NextPc s a) (hs : s.PcBounded) (hfetched : s.pc.toNat + 1 < 4096) :
    a.toNat ≤ 0x10FE := by
  cases h with
  | waits => exact hs.1
  | next | skips =>
    bv_omega
  | jumps nnn =>
    rw [toNat_zextAddr]
    omega
  | jumpsFromV0 nnn =>
    rw [BitVec.toNat_add, toNat_zextAddr, toNat_zextByte]
    omega
  | returns k => exact (hs.2 k).trans (by decide)

/-- Settles O57: only an instruction that was fetched moves `pc`, so that `pc + 1` is in memory before it. -/
theorem stepKeepsThePcBound : Obligations.StepKeepsThePcBound := by
  intro s t hs h
  obtain ⟨-, ⟨e, rfl⟩ | ⟨w, i, hf, -, hexec, hran⟩⟩ := step_eq_next_cases h
  · exact hs
  · obtain ⟨hfetched, -⟩ := fetch_eq_ok.1 hf
    refine ⟨hran.pc.toNat_le hs hfetched, fun k => ?_⟩
    obtain hkept | hpushed := slot_of_exec hexec hran k
    · exact hkept ▸ hs.2 k
    · rw [hpushed]
      bv_omega

theorem step_keeps_inv {s t : State} (hs : s.Inv) (h : step s = .next t) : t.Inv := by
  obtain ⟨hcanonical, hfont, hpc⟩ := hs
  exact ⟨stepKeepsMemoryCanonical s t hcanonical h, stepKeepsTheFontRegion s t hfont h, stepKeepsThePcBound s t hpc h⟩

/-! ### The invariant of the block (60_exceptions.md R282) -/

/-- The invariant speaks of memory, `pc` and the stack slots alone. -/
theorem State.Inv.of_eq {s t : State} (hs : s.Inv) (hmem : t.mem = s.mem) (hpc : t.pc = s.pc) (hstack : t.stack = s.stack) :
    t.Inv := by
  simpa only [State.Inv, State.MemoryCanonical, State.FontIntact, State.PcBounded, hmem, hpc, hstack] using hs

theorem reset_inv : State.reset.Inv :=
  ⟨rfl, fun a ha => if_pos ha, by decide, by simp [State.reset]⟩

/-- An admitted load wrote the bytes at 0x200, or `Status` alone (20_memory.md R92, R93). -/
theorem transact_loadProgram_cases {c c' : Session} {bytes : List Byte} {r : Reply}
    (h : transact c (.loadProgram bytes) = .ok (r, c')) :
    c.phase = .fresh ∧
      ((bytes.length ≤ 3584 ∧ c' = ⟨c.block.setMem (c.block.mem.writeBytes 0x200 bytes), .loaded⟩) ∨
       (3584 < bytes.length ∧
        c' = ⟨c.block.setStatus (.faulted (.capacityExceeded bytes.length)), .loadFailed⟩)) := by
  obtain ⟨hfresh, hload⟩ := transact_loadProgram_eq_ok.1 h
  obtain hfits | hexceeds := le_or_gt bytes.length 3584
  · exact ⟨hfresh, .inl ⟨hfits, congrArg Prod.snd (hload.symm.trans (load_of_fits hfits))⟩⟩
  · exact ⟨hfresh, .inr ⟨hexceeds, congrArg Prod.snd (hload.symm.trans (load_of_exceeds hexceeds))⟩⟩

theorem loaded_inv {s : State} {bytes : List Byte} (hs : s.Inv) (hfits : bytes.length ≤ 3584) :
    (s.setMem (s.mem.writeBytes 0x200 bytes)).Inv := by
  obtain ⟨hcanonical, hfont, hpc⟩ := hs
  have hstored : StoredAboveFont s.mem (s.mem.writeBytes 0x200 bytes) := .inr ⟨0x200, bytes, by omega, by omega, rfl⟩
  exact ⟨hstored.wf hcanonical, fun a ha => (hstored.byteAt ha).trans (hfont a ha), hpc⟩

theorem stepPort_keeps_inv {s t : State} {b : Byte} {o : StepOutcome} (hs : s.Inv) (h : s.stepPort b = .ok (o, t)) :
    t.Inv := by
  obtain ⟨u, hstep, -, rfl⟩ | ⟨e, -, -, rfl⟩ := stepPort_eq_ok.1 h
  · have hbyte : (s.setRandom [b] s.draws).Inv := hs.of_eq rfl rfl rfl
    exact (step_keeps_inv hbyte hstep).of_eq rfl rfl rfl
  · exact hs

/-- Settles O58, by the transaction: reset and load give memory its listed bytes, a step keeps the invariant, and every
other transaction writes none of what it speaks of. -/
theorem transactionsKeepTheInvariant : Obligations.TransactionsKeepTheInvariant := by
  intro c c' t r hc h
  cases t with
  | reset => cases h; exact reset_inv.of_eq rfl rfl rfl
  | loadProgram bytes =>
    obtain ⟨-, ⟨hfits, rfl⟩ | ⟨-, rfl⟩⟩ := transact_loadProgram_cases h
    · exact loaded_inv hc hfits
    · exact hc.of_eq rfl rfl rfl
  | setKey k =>
    obtain ⟨hk, -, rfl⟩ := transact_setKey_eq_ok.1 h
    exact hc.of_eq rfl rfl rfl
  | resetKeys | tickTimers n => cases h; exact hc.of_eq rfl rfl rfl
  | step b =>
    obtain ⟨-, o, t, hstep, -, rfl⟩ := transact_step_eq_ok.1 h
    exact stepPort_keeps_inv hc hstep
  | readFramebuffer | readSoundActive | readFault => cases h; exact hc

/-! ### The invariant of the session (60_exceptions.md R272, R282) -/

/-- A transaction that keeps the phase and `Status` keeps what the invariant says of the two. -/
theorem Session.Inv.of_same {c c' : Session} (hc : c.Inv) (hblock : c'.block.Inv) (hphase : c'.phase = c.phase)
    (hstatus : c'.block.status = c.block.status) : c'.Inv := by
  refine ⟨hblock, ?_⟩
  simpa only [Session.Safe, hphase, hstatus] using hc.2

/-- Settles O60, by the transaction: reset and load set phase and `Status` together, a step enters the phase of which
nothing is said, and every other transaction keeps both. -/
theorem transactionsKeepTheSessionInvariant : Obligations.TransactionsKeepTheSessionInvariant := by
  intro c c' t r hc h
  have ⟨hinv, hsafe, _⟩ := hc
  have hblock : c'.block.Inv := transactionsKeepTheInvariant c c' t r hinv h
  cases t with
  | reset =>
    cases h
    exact ⟨hblock, fun _ => rfl, fun hfailed => nomatch hfailed⟩
  | loadProgram bytes =>
    obtain ⟨hfresh, ⟨-, rfl⟩ | ⟨hexceeds, rfl⟩⟩ := transact_loadProgram_cases h
    · exact ⟨hblock, fun _ => hsafe (.inl hfresh), fun hfailed => nomatch hfailed⟩
    · exact ⟨hblock, fun hphase => by simp at hphase, fun _ => ⟨_, hexceeds, rfl⟩⟩
  | setKey k =>
    obtain ⟨hk, -, rfl⟩ := transact_setKey_eq_ok.1 h
    exact hc.of_same hblock rfl rfl
  | step b =>
    obtain ⟨-, o, t, -, -, rfl⟩ := transact_step_eq_ok.1 h
    exact ⟨hblock, fun hphase => by simp at hphase, fun hfailed => nomatch hfailed⟩
  | resetKeys | tickTimers n | readFramebuffer | readSoundActive | readFault =>
    cases h
    exact hc.of_same hblock rfl rfl

theorem start_inv : Session.start.Inv := ⟨reset_inv, fun _ => rfl, fun hfailed => nomatch hfailed⟩

/-- Settles O54: the memory list at reset is empty, so that every byte reads as its reset contents. -/
theorem resetMeetsTheInvariant : Obligations.ResetMeetsTheInvariant := ⟨reset_inv, start_inv⟩

/-- Settles O59, by induction on the transactions that lead to the session. -/
theorem reachableSessionsMeetTheInvariant : Obligations.ReachableSessionsMeetTheInvariant := by
  intro c hreachable
  induction hreachable with
  | start => exact start_inv
  | after _ htransact ih => exact transactionsKeepTheSessionInvariant _ _ _ _ ih htransact

end Sys2Proof.Machine
end

section
/-! PROOFS. The step (40_control_flow.md R150, R151): what it runs, that it always ends in a next state, and what a condition
or a retry leaves; then the control-transfer statements that need the decoder or two instructions. -/

namespace Sys2Proof.Machine

/-! ### The instruction a step runs -/

/-- Settles O7: the fetch reads the two bytes at `pc`. -/
theorem stepRunsTheDecodedInstruction : Obligations.StepRunsTheDecodedInstruction := by
  intro s i hs hin hdecode
  exact step_of_decode hs (fetch_eq_ok.2 ⟨hin, rfl⟩) hdecode

/-- A running core that fetches the word of a well-formed instruction runs that instruction. -/
theorem step_of_fetch_encode {s : State} {i : Instr} (hs : s.status = .running) (hi : i.wf = true)
    (hf : fetch s = .ok (encode i)) : step s = exec i s :=
  step_of_decode hs hf (decode_eq_ok.2 (decodeRow_encode hi))

/-- A whole word lies at the address `withFetchWord` stores at. -/
theorem fetchAddress_lt (s : State) : s.fetchAddress + 1 < 4096 := by
  unfold State.fetchAddress
  split
  · assumption
  · decide

theorem fetch_withFetchWord {s : State} (hs : s.MemoryCanonical) (w : Word) :
    fetch (s.withFetchWord 16 w.toNat) = .ok w := by
  have ha := fetchAddress_lt s
  have hpc : (s.withFetchWord 16 w.toNat).pc.toNat = s.fetchAddress := Nat.mod_eq_of_lt (by omega)
  have hmem : (s.withFetchWord 16 w.toNat).mem = s.mem.writeBytes s.fetchAddress [highByte w, lowByte w] := by
    rw [State.withFetchWord, tableWord_toNat]
    rfl
  have hin : s.fetchAddress + [highByte w, lowByte w].length ≤ 4096 := ha
  have hhigh : (s.mem.writeBytes s.fetchAddress [highByte w, lowByte w]).byteAt s.fetchAddress = highByte w :=
    byteAt_writeBytes_inside (k := 0) hs hin (by simp)
  have hlow : (s.mem.writeBytes s.fetchAddress [highByte w, lowByte w]).byteAt (s.fetchAddress + 1) = lowByte w :=
    byteAt_writeBytes_inside (k := 1) hs hin (by simp)
  refine fetch_eq_ok.2 ⟨hpc.symm ▸ ha, ?_⟩
  rw [hpc, hmem, hhigh, hlow, wordOfBytes_bytes]

/-- Settles O13: the stored word is fetched, and it decodes to the instruction. -/
theorem storedFetchWordIsRunNext : Obligations.StoredFetchWordIsRunNext := by
  intro s i hs hi
  exact step_of_fetch_encode rfl hi (fetch_withFetchWord hs _)

/-- Settles O12, by `Status`: a faulted core answers its condition, and a running core a next state. -/
theorem everyRunningStepHasANextState : Obligations.EveryRunningStepHasANextState := by
  intro s
  cases hs : s.status with
  | faulted e => simp [step_of_faulted hs]
  | running =>
    obtain ⟨t, ht⟩ := step_next hs
    simp [ht]

/-! ### What a condition or a retry leaves (40_control_flow.md R151, 43_io_timers.md R245) -/

theorem outcomeTag_eq_fault {s t : State} {e : Fault} : outcomeTag s t = .fault e ↔ t.status = .faulted e := by
  unfold outcomeTag
  split
  · simp [*]
  · split <;> simp [*]

theorem outcomeTag_eq_retry {s t : State} : outcomeTag s t = .retry ↔ t.status = .running ∧ s.waitsForKey = true := by
  unfold outcomeTag
  split
  · simp [*]
  · split <;> simp [*]

theorem outcomeTag_eq_completed {s t : State} :
    outcomeTag s t = .completed ↔ t.status = .running ∧ s.waitsForKey = false := by
  unfold outcomeTag
  split
  · simp [*]
  · split <;> simp [*]

/-- A running core that is faulted after its step has changed in `Status` alone. -/
theorem eq_setStatus_of_step {s t : State} {e : Fault} (h : step s = .next t) (ht : t.status = .faulted e) :
    t = s.setStatus (.faulted e) := by
  obtain ⟨hs, ⟨e', rfl⟩ | ⟨_, _, -, -, -, hran⟩⟩ := step_eq_next_cases h
  · exact congrArg s.setStatus ht
  · rw [hran.status, hs] at ht
    cases ht

/-- A core that waits for a key is where it was after a step. -/
theorem step_of_waitsForKey {s : State} (h : s.waitsForKey = true) : step s = .next s := by
  obtain ⟨hs, hlatch, w, x, hf, hd⟩ := waitsForKey_iff.1 h
  rw [step_of_decode hs hf hd, exec_keyGet_of_none x hlatch]

/-- Settles O11: the tag of the outcome is read from `Status` after the step and from whether the step found a key to wait
for. -/
theorem raisedOrRetriedStepWritesNothing : Obligations.RaisedOrRetriedStepWritesNothing := by
  intro s t r o hs hport
  obtain ⟨u, hstep, rfl, rfl⟩ | ⟨e, hfault, -, -⟩ := stepPort_eq_ok.1 hport
  · refine ⟨fun e htag => ?_, fun e hfaulted => outcomeTag_eq_fault.2 hfaulted, fun htag => ?_⟩
    · obtain rfl := eq_setStatus_of_step hstep (outcomeTag_eq_fault.1 htag)
      rfl
    · obtain ⟨-, hwaits⟩ := outcomeTag_eq_retry.1 htag
      have hstay := step_of_waitsForKey (s := s.setRandom [r] s.draws) hwaits
      obtain rfl := Host.Outcome.next.inj (hstay.symm.trans hstep)
      rfl
  · obtain ⟨v, hv⟩ := step_next (s := s.setRandom [r] s.draws) hs
    rw [hv] at hfault
    cases hfault

/-! ### Control transfer (40_control_flow.md R154 to R161) -/

/-- Settles O16: a 12-bit address and a byte sum below 65536. -/
theorem jumpV0AddsTheBaseRegister : Obligations.JumpV0AddsTheBaseRegister := by
  intro s nnn
  have haddr := nnn.isLt
  have hbyte := (s.reg 0).isLt
  refine ⟨_, rfl, ?_, (sameOutside_advance s).setPc⟩
  rw [setPc_pc, BitVec.toNat_add, toNat_zextAddr, toNat_zextByte]
  omega

/-- Settles O22: the return reads the slot the call wrote, and lowers `SP` by the one the call raised it. -/
theorem callThenReturnResumesAfterTheCall : Obligations.CallThenReturnResumesAfterTheCall := by
  intro s nnn hroom
  obtain ⟨t, hcall, -, hraised, hslot, -, hcallFrame⟩ := (callPushesTheNextAddress s nnn).1 hroom
  obtain ⟨u, hret, hpc, hlowered, -, hretFrame⟩ := (returnPopsTheStack t).1 (by omega)
  have hframe : SameOutside s u [.stack] := (hcallFrame.trans hretFrame).mono (by simp)
  refine ⟨t, u, hcall, hret, ?_, Fin.ext (by omega), hframe .status (by simp), hframe⟩
  simpa only [hraised, Nat.add_sub_cancel, hslot] using hpc

/-- Settles O23: the step of such a core answers the same state, and so does every number of them. -/
theorem jumpToItselfIsNeverLeft : Obligations.JumpToItselfIsNeverLeft := by
  intro s nnn n hs hf hpc
  have htarget : zextAddr nnn = s.pc := BitVec.eq_of_toNat_eq ((toNat_zextAddr nnn).trans hpc.symm)
  have hstep : core.step s = .next s := by
    refine (step_of_fetch_encode hs rfl hf).trans ?_
    show complete (s.advance.setPc (zextAddr nnn)) = .next s
    rw [htarget]
    rfl
  induction n with
  | zero => rfl
  | succ n ih => simp only [Host.Core.run, hstep, ih]

end Sys2Proof.Machine
end

section
/-! PROOFS. The ALU and transfer statements: the bitwise operations, the random byte at the core and at the port, the index
register, and the transfers of `V0` to `Vx`. -/

namespace Sys2Proof.Machine

/-! ### Bitwise operations (41_alu.md R183 to R185) -/

/-- An instruction that writes one register, its result given bit by bit. -/
theorem completes_of_setReg_bits {i : Instr} {s : State} {x : Nibble} {b : Byte} {bit : Nat → Bool}
    (hexec : exec i s = complete (s.advance.setReg x b)) (hbits : ∀ k, b.getLsbD k = bit k) :
    Completes i s fun t => (∀ k, (t.reg x).getLsbD k = bit k) ∧ SameRegsBut s t [x] ∧ t.pc = s.pc + 2 ∧
      SameOutside s t [.regs] := by
  obtain ⟨t, hnext, rfl, hframe⟩ := completes_of_setReg hexec
  exact ⟨t, hnext, hbits, hframe⟩

/-- Settles O25: each operation writes one register, whose bits are those of the operation. -/
theorem logicIsBitwiseAndWritesNoFlag : Obligations.LogicIsBitwiseAndWritesNoFlag := by
  intro s x y
  exact ⟨completes_of_setReg_bits rfl fun _ => BitVec.getLsbD_or, completes_of_setReg_bits rfl fun _ => BitVec.getLsbD_and,
    completes_of_setReg_bits rfl fun _ => BitVec.getLsbD_xor⟩

/-! ### The random byte (41_alu.md R191, assumption 3) -/

theorem exec_rand_of_supplied {s : State} {r : Byte} {rest : List Byte} (x : Nibble) (kk : Byte)
    (h : s.randomIn = r :: rest) :
    exec (.rand x kk) s = .next ((s.advance.setRandom rest s.draws).setReg x (r &&& kk)) := by
  simp [exec, execRand, State.consumeRandom, State.randomByte, h, complete]

theorem exec_rand_of_free {s : State} (x : Nibble) (kk : Byte) (h : s.randomIn = []) :
    exec (.rand x kk) s =
      .next ((s.advance.setRandom [] (s.draws + 1)).setReg x (Config.randomByte s.draws &&& kk)) := by
  simp [exec, execRand, State.consumeRandom, State.randomByte, h, complete]

/-- What either leaves: the masked byte, and the model's own two fields as they are told. -/
theorem completes_of_setRandom_setReg {i : Instr} {s : State} {x : Nibble} {r kk : Byte} {bytes : List Byte} {n : Nat}
    (hexec : exec i s = .next ((s.advance.setRandom bytes n).setReg x (r &&& kk))) :
    Completes i s fun t => (∀ k, (t.reg x).getLsbD k = (r.getLsbD k && kk.getLsbD k)) ∧ t.randomIn = bytes ∧
      t.draws = n ∧ SameRegsBut s t [x] ∧ t.pc = s.pc + 2 ∧ SameOutside s t [.regs, .random] := by
  have hframe := ((sameOutside_advance s).trans (sameOutside_setRandom _ bytes n)).trans (sameOutside_setReg _ x (r &&& kk))
  refine ⟨_, hexec, ?_, rfl, rfl, fun y hy => ?_, rfl, hframe.mono (by decide)⟩
  · simp
  · simp [List.ne_of_not_mem_cons hy]

/-- A step of the port that takes no condition and finds no key to wait for. -/
theorem stepPort_of_completed {s t : State} {r : Byte} (hstep : step (s.setRandom [r] s.draws) = .next t)
    (ht : t.status = .running) (hwaits : s.waitsForKey = false) :
    s.stepPort r = .ok (.completed, t.setRandom s.randomIn s.draws) :=
  stepPort_eq_ok.2 (.inl ⟨t, hstep, (outcomeTag_eq_completed.2 ⟨ht, hwaits⟩).symm, rfl⟩)

theorem waitsForKey_of_fetch_encode {s : State} {i : Instr} (hi : i.wf = true) (hf : fetch s = .ok (encode i))
    (hkey : ∀ x, i ≠ .keyGet x) : s.waitsForKey = false := by
  rw [Bool.eq_false_iff]
  intro hwaits
  obtain ⟨-, -, w, x, hw, hd⟩ := waitsForKey_iff.1 hwaits
  obtain rfl := Except.ok.inj (hf.symm.trans hw)
  exact hkey x (Option.some.inj ((decodeRow_encode hi).symm.trans (decode_eq_ok.1 hd)))

/-- Settles O29: the core takes the first supplied byte or a free one, and the port supplies `r` for the one step and puts
both fields back. -/
theorem randomByteIsMasked : Obligations.RandomByteIsMasked := by
  intro s x kk
  refine ⟨fun r rest hsupplied => ?_, fun hfree => ?_, fun hs hf r => ?_, fun r o t hport => ?_⟩
  · exact completes_of_setRandom_setReg (exec_rand_of_supplied x kk hsupplied)
  · exact completes_of_setRandom_setReg (exec_rand_of_free x kk hfree)
  · have hstep : step (s.setRandom [r] s.draws) = _ :=
      (step_of_fetch_encode (s := s.setRandom [r] s.draws) hs rfl hf).trans (exec_rand_of_supplied x kk rfl)
    have hwaits := waitsForKey_of_fetch_encode (i := .rand x kk) rfl hf (by simp)
    refine ⟨s.advance.setReg x (r &&& kk), stepPort_of_completed hstep hs hwaits, ?_, fun y hy => ?_, rfl,
      (sameOutside_advance s).trans (sameOutside_setReg _ _ _)⟩
    · simp
    · simp [List.ne_of_not_mem_cons hy]
  · obtain ⟨u, -, -, rfl⟩ | ⟨e, -, -, rfl⟩ := stepPort_eq_ok.1 hport
    · exact ⟨rfl, rfl⟩
    · exact ⟨rfl, rfl⟩

/-! ### Failed checks (40_control_flow.md R151) -/

/-- An instruction whose check fails takes the condition of the check. -/
theorem traps_of_attempt {α : Type} {i : Instr} {s : State} {e : Fault} {r : Except Fault α} {k : α → Result}
    (hexec : exec i s = attempt s r k) (hr : r = .error e) : Traps i s e :=
  ⟨_, hexec.trans (attempt_eq_next.2 (.inl ⟨e, hr, rfl⟩)), setStatus_status s _⟩

/-! ### The index register (42_index_memory.md R220 to R222) -/

/-- An instruction that writes `I` alone. -/
theorem completes_of_setIndex {i : Instr} {s : State} {a : Word} {n : Nat}
    (hexec : exec i s = .next (s.advance.setIndex a)) (ha : a.toNat = n) :
    Completes i s fun t => t.i.toNat = n ∧ t.pc = s.pc + 2 ∧ SameOutside s t [.index] :=
  ⟨_, hexec, ha, rfl, (sameOutside_advance s).trans (sameOutside_setIndex _ _)⟩

/-- Settles O30: both write `I`, and the sum wraps at 16 bits. -/
theorem indexIsSetAndAddedTo : Obligations.IndexIsSetAndAddedTo := by
  intro s x nnn
  have hsum : (s.i + zextByte (s.reg x)).toNat = (s.i.toNat + (s.reg x).toNat) % 65536 := by
    rw [BitVec.toNat_add, toNat_zextByte]
  exact ⟨completes_of_setIndex rfl (toNat_zextAddr nnn), completes_of_setIndex rfl hsum⟩

/-- Settles O31, by whether `Vx` is a digit: the address of its glyph is below 80. -/
theorem fontGlyphPointsAtTheDigit : Obligations.FontGlyphPointsAtTheDigit := by
  intro s x
  constructor
  · intro hdigit
    have haddr : (fontGlyphAddress (s.reg x)).toNat = 5 * (s.reg x).toNat := by
      rw [fontGlyphAddress, BitVec.toNat_ofNat, Config.fontBase, Config.glyphBytes]
      omega
    exact completes_of_setIndex (attempt_eq_next.2 (.inr ⟨_, digitOperand_eq_ok.2 ⟨hdigit, rfl⟩, rfl⟩)) haddr
  · intro hnone
    exact traps_of_attempt rfl (digitOperand_eq_error.2 ⟨hnone, rfl⟩)

/-! ### `Fx55` (42_index_memory.md R224, 20_memory.md R103) -/

/-- Settles O33, by where the `x + 1` bytes lie: all in writable memory, the first in the font region, or the last outside
memory, where the first is past the font region. -/
theorem regDumpStoresTheRegisters : Obligations.RegDumpStoresTheRegisters := by
  intro s x hcanonical
  have hstore : StoresBytes (.regDump x) s (s.regsUpTo x) := storesBytes_regDump x s
  have hlast : s.byteAddr x.toNat = s.byteAddr 0 + x.toNat := rfl
  have hlength := length_regsUpTo s x
  refine ⟨fun hfont hin => ?_, fun hfont => ?_, fun hout => ?_⟩
  · obtain ⟨t, hexec, hbytes, hother, hframe⟩ := hstore.completes hcanonical hfont (by omega)
    refine ⟨t, hexec, fun k hk => ?_, hlength ▸ hother, hframe⟩
    have hk' : k.toNat ≤ x.toNat := hk
    rw [hbytes k.toNat (by omega), getElem_regsUpTo hk]
  · exact hstore.traps (memWriteBytes_of_readOnly (by omega) hfont)
  · have hx := x.isLt
    exact hstore.traps (memWriteBytes_of_outside (by omega) (by omega) (by omega))

/-- Settles O14: an `Fx55` that takes no condition stored all its bytes, so that memory at `pc + 2` holds `V0` and `V1`. -/
theorem storedWordIsFetchedNext : Obligations.StoredWordIsFetchedNext := by
  intro s t x hcanonical hs hx hindex hexec hrunning
  have hno {e : Fault} : ¬Traps (.regDump x) s e := by
    rintro ⟨u, hu, hfaulted⟩
    obtain rfl := exec_next_unique hexec hu
    rw [hrunning] at hfaulted
    cases hfaulted
  obtain ⟨hstored, hreadOnly, houtside⟩ := regDumpStoresTheRegisters s x hcanonical
  have hfont : 80 ≤ s.byteAddr 0 := not_lt.1 fun h => hno (hreadOnly h)
  have hin : s.byteAddr x.toNat < 4096 := not_le.1 fun h => hno (houtside h)
  obtain ⟨u, hu, hbytes, -, hpc, -⟩ := hstored hfont hin
  obtain rfl := exec_next_unique hexec hu
  have hhigh := hbytes 0 (Nat.zero_le _)
  have hlow := hbytes 1 hx
  have haddr : t.pc.toNat = s.i.toNat := congrArg BitVec.toNat (hpc.trans hindex.symm)
  refine fetch_eq_ok.2 ⟨?_, ?_⟩
  · have hlast : s.byteAddr x.toNat = s.i.toNat + x.toNat := rfl
    omega
  · rw [haddr, ← hhigh, ← hlow]
    rfl

/-! ### `Fx65` (42_index_memory.md R225) -/

theorem memReadBytes_of_inside {m : Memory} {a n : Nat} (h : n = 0 ∨ a + n ≤ 4096) :
    memReadBytes m a n = .ok (m.bytesFrom a n) :=
  memReadBytes_eq_ok.2 ⟨fun k hk => by omega, rfl⟩

/-- A read that runs past memory stops at the first byte outside. -/
theorem memReadBytes_of_outside {m : Memory} {a n : Nat} (hpos : 0 < n) (hend : 4096 < a + n) :
    memReadBytes m a n = .error (.addressOutOfRange (firstOutside a)) := by
  have hfirst : a + (4096 - a) = firstOutside a := add_tsub_eq_max
  exact memReadBytes_eq_error.2 ⟨4096 - a, by omega, ⟨by omega, congrArg _ hfirst.symm⟩, fun j hj => by omega⟩

/-- `V0` to `Vx` hold the bytes read, and the other registers what they held. -/
theorem reg_loadRegs_bytesFrom {s : State} {m : Memory} {a : Nat} {x : Nibble} (k : Nibble) :
    (s.loadRegs 0 (m.bytesFrom a (regCount x))).reg k = if k ≤ x then m.byteAt (a + k.toNat) else s.reg k := by
  have hx := x.isLt
  have hcount : regCount x = x.toNat + 1 := rfl
  rw [reg_loadRegs (by rw [length_bytesFrom]; omega)]
  by_cases hk : k ≤ x
  · have hk' : k.toNat ≤ x.toNat := hk
    rw [if_pos hk, dif_pos ⟨Nat.zero_le _, by rw [length_bytesFrom]; omega⟩]
    exact getElem_bytesFrom (by omega)
  · have hk' : ¬k.toNat ≤ x.toNat := hk
    rw [if_neg hk, dif_neg (by rw [length_bytesFrom]; omega)]

/-- Settles O34, by whether the `x + 1` bytes all lie in memory. -/
theorem regLoadReadsTheRegisters : Obligations.RegLoadReadsTheRegisters := by
  intro s x
  have hlast : s.byteAddr x.toNat = s.byteAddr 0 + x.toNat := rfl
  have hcount : regCount x = x.toNat + 1 := rfl
  constructor
  · intro hin
    refine ⟨_, attempt_eq_next.2 (.inr ⟨_, memReadBytes_of_inside (by omega), rfl⟩), fun k hk => ?_, fun k hk => ?_,
      loadRegs_pc _ _ _, (sameOutside_advance s).trans (sameOutside_loadRegs _ _ _)⟩
    · rw [reg_loadRegs_bytesFrom, if_pos hk]
      rfl
    · rw [reg_loadRegs_bytesFrom, if_neg (BitVec.not_le.2 hk)]
      rfl
  · intro hout
    exact traps_of_attempt rfl (memReadBytes_of_outside (by omega) (by omega))

end Sys2Proof.Machine
end

section
/-! PROOFS. The named writers (10_state.md R32 to R46, 20_memory.md R82): a part changes under the instructions that list it
among their written parts, and a general register under those that name it. -/

namespace Sys2Proof.Machine

/-! ### Which instructions list a part -/

theorem indexWriter {i : Instr} (h : .index ∈ writtenParts i) :
    (∃ n, i = .loadIndex n) ∨ (∃ x, i = .addIndex x) ∨ ∃ x, i = .fontGlyph x := by
  cases i <;> simp [writtenParts] at h ⊢

theorem delayWriter {i : Instr} (h : .delay ∈ writtenParts i) : ∃ x, i = .setDelay x := by
  cases i <;> simp [writtenParts] at h ⊢

theorem soundWriter {i : Instr} (h : .sound ∈ writtenParts i) : ∃ x, i = .setSound x := by
  cases i <;> simp [writtenParts] at h ⊢

theorem stackWriter {i : Instr} (h : .stack ∈ writtenParts i) : (∃ n, i = .call n) ∨ i = .ret := by
  cases i <;> simp [writtenParts] at h ⊢

theorem memoryWriter {i : Instr} (h : .memory ∈ writtenParts i) : (∃ x, i = .bcd x) ∨ ∃ x, i = .regDump x := by
  cases i <;> simp [writtenParts] at h ⊢

theorem screenWriter {i : Instr} (h : .screen ∈ writtenParts i) : i = .clearScreen ∨ ∃ x y n, i = .draw x y n := by
  cases i <;> simp [writtenParts] at h ⊢

theorem latchWriter {i : Instr} (h : .latch ∈ writtenParts i) : ∃ x, i = .keyGet x := by
  cases i <;> simp [writtenParts] at h ⊢

theorem held_not_mem_writtenParts (i : Instr) : .held ∉ writtenParts i := by
  cases i <;> simp [writtenParts]

/-- Settles O49: each of the four parts is unchanged or has one of its writers. -/
theorem specialRegistersHaveNamedWriters : Obligations.SpecialRegistersHaveNamedWriters := by
  intro i s t h
  exact ⟨(exec_part (p := .index) h (by decide)).imp_right indexWriter,
    (exec_part (p := .delay) h (by decide)).imp_right delayWriter,
    (exec_part (p := .sound) h (by decide)).imp_right soundWriter,
    (exec_part (p := .stack) h (by decide)).imp_right stackWriter⟩

/-- Settles O50: the same for memory and the devices; screens with equal cells are equal. -/
theorem memoryAndDevicesHaveNamedWriters : Obligations.MemoryAndDevicesHaveNamedWriters := by
  intro i s t h
  exact ⟨(exec_mem h).imp_right memoryWriter,
    (exec_part (p := .screen) h (by decide)).imp Screen.ext_cell screenWriter,
    (exec_part (p := .latch) h (by decide)).imp_right latchWriter,
    (exec_part (p := .held) h (by decide)).resolve_right (held_not_mem_writtenParts i)⟩

/-! ### General registers (10_state.md R32, R33) -/

theorem reg_setReg_eq_or (s : State) (x : Nibble) (b : Byte) (r : Nibble) : (s.setReg x b).reg r = s.reg r ∨ r = x := by
  by_cases hr : r = x
  · exact .inr hr
  · exact .inl (by simp [hr])

/-- A flag writer takes a condition, or writes `VF` last, after a result that it names. -/
theorem exec_flagWriter {i : Instr} {s t : State} (hi : IsFlagWriter i) (h : exec i s = .next t) :
    (∃ e, t = s.setStatus (.faulted e)) ∨
      ∃ (u : State) (c : Bool), t = u.setFlag c ∧ ∀ r, u.reg r = s.reg r ∨ WritesAsResult r i := by
  cases i with
  | mathAdd x _ | mathSub x _ | shiftRight x _ | mathSubN x _ | shiftLeft x _ =>
    obtain rfl := complete_eq_next.1 h
    exact .inr ⟨_, _, rfl, fun r => reg_setReg_eq_or s.advance x _ r⟩
  | draw _ _ _ =>
    obtain ⟨e, -, rfl⟩ | ⟨⟨f, c⟩, -, h⟩ := attempt_eq_next.1 h
    · exact .inl ⟨e, rfl⟩
    · obtain rfl := complete_eq_next.1 h
      exact .inr ⟨_, c, rfl, fun r => .inl rfl⟩
  | _ => exact hi.elim

/-- Any other instruction changes the registers it names as its result. -/
theorem reg_of_exec {i : Instr} {s t : State} (hi : ¬IsFlagWriter i) (h : exec i s = .next t) (r : Nibble) :
    t.reg r = s.reg r ∨ WritesAsResult r i := by
  obtain hsame | hregs := exec_part (p := .regs) h (by decide)
  · exact .inl (hsame r)
  · cases i with
    | loadByte x _ | addByte x _ | loadReg x _ | orReg x _ | andReg x _ | xorReg x _ | loadDelay x =>
      obtain rfl := complete_eq_next.1 h
      exact reg_setReg_eq_or s.advance x _ r
    | rand x _ =>
      obtain ⟨bytes, n, hrandom⟩ := consumeRandom_eq s.advance
      obtain rfl := complete_eq_next.1 h
      rw [hrandom]
      exact reg_setReg_eq_or (s.advance.setRandom bytes n) x _ r
    | keyGet x =>
      cases hlatch : s.latch with
      | none =>
        obtain rfl := exec_next_unique (exec_keyGet_of_none x hlatch) h
        exact .inl rfl
      | some k =>
        obtain rfl := exec_next_unique (exec_keyGet_of_pending x hlatch) h
        exact reg_setReg_eq_or (s.advance.setLatch none) x _ r
    | regLoad x =>
      obtain ⟨e, -, rfl⟩ | ⟨bytes, hread, h⟩ := attempt_eq_next.1 h
      · exact .inl rfl
      · obtain ⟨-, rfl⟩ := memReadBytes_eq_ok.1 hread
        obtain rfl := complete_eq_next.1 h
        by_cases hr : r ≤ x
        · exact .inr hr
        · exact .inl (by rw [reg_loadRegs_bytesFrom, if_neg hr]; rfl)
    | mathAdd _ _ | mathSub _ _ | shiftRight _ _ | mathSubN _ _ | shiftLeft _ _ | draw _ _ _ => exact absurd trivial hi
    | _ => simp [writtenParts] at hregs

theorem reg_setFlag_VF (s : State) (c : Bool) : (s.setFlag c).reg 0xF = flagByte c :=
  (reg_setFlag s c 0xF).trans (if_pos rfl)

theorem reg_setFlag_of_ne {r : Nibble} (hr : r ≠ 0xF) (s : State) (c : Bool) : (s.setFlag c).reg r = s.reg r :=
  (reg_setFlag s c r).trans (if_neg hr)

theorem flagByte_eq (c : Bool) : flagByte c = 0 ∨ flagByte c = 1 := by cases c <;> simp [flagByte]

/-- Settles O51, by whether the instruction writes the flag: then `VF` is written last, with 0 or 1. -/
theorem generalRegistersHaveNamedWriters : Obligations.GeneralRegistersHaveNamedWriters := by
  intro i s t h
  by_cases hi : IsFlagWriter i
  · obtain ⟨e, rfl⟩ | ⟨u, c, rfl, hresult⟩ := exec_flagWriter hi h
    · exact ⟨fun r => .inl rfl, fun _ _ hrunning => nomatch hrunning⟩
    · refine ⟨fun r => ?_, fun _ _ _ => (reg_setFlag_VF u c).symm ▸ flagByte_eq c⟩
      by_cases hr : r = 0xF
      · exact .inr (.inr ⟨hr, hi⟩)
      · exact reg_setFlag_of_ne hr u c ▸ (hresult r).imp_right .inl
  · exact ⟨fun r => (reg_of_exec hi h r).imp_right .inl, fun hflag => absurd hflag hi⟩

end Sys2Proof.Machine
end

section
/-! PROOFS. The display and keypad statements (43_io_timers.md R241 to R245): the draw in terms of the cells a sprite covers,
the key skips, and the waiting key read at the port. -/

namespace Sys2Proof.Machine

/-! ### The draw (20_memory.md R90) -/

theorem spriteOn_bytesFrom {m : Memory} {a x y n : Nat} {px : Fin 64} {py : Fin 32} :
    SpriteOn (m.bytesFrom a n) x y px py ↔ Covers m a x y n px py := by
  constructor
  · rintro ⟨row, hrow, col, hcol, hbit, rfl, rfl⟩
    rw [length_bytesFrom] at hrow
    rw [getElem_bytesFrom hrow] at hbit
    exact ⟨row, col, hrow, hcol, hbit, rfl, rfl⟩
  · rintro ⟨row, col, hrow, hcol, hbit, hx, hy⟩
    exact ⟨row, by rwa [length_bytesFrom], col, hcol, by rwa [getElem_bytesFrom hrow], Fin.ext hx, Fin.ext hy⟩

/-- The screen and the collision a draw leaves whose sprite lies in memory. -/
def State.drawn (s : State) (x y n : Nibble) : Screen × Bool :=
  drawRows (s.fb, false) (s.reg x).toNat (s.reg y).toNat (s.mem.bytesFrom (s.byteAddr 0) n.toNat)

/-- The cells the sprite covers are inverted, and a collision is a set cell among them. -/
theorem drawn_spec (s : State) (x y n : Nibble) :
    (∀ px py, (s.drawn x y n).1.cell px py = true ↔ (s.fb.cell px py = true ↔
      ¬Covers s.mem (s.byteAddr 0) (s.reg x).toNat (s.reg y).toNat n.toNat px py)) ∧
    ((s.drawn x y n).2 = true ↔ ∃ px py, s.fb.cell px py = true ∧
      Covers s.mem (s.byteAddr 0) (s.reg x).toNat (s.reg y).toNat n.toNat px py) := by
  have hn := n.isLt
  obtain ⟨hcells, hcollision⟩ := drawRows_spec (s.mem.bytesFrom (s.byteAddr 0) n.toNat) (s.fb, false) (s.reg x).toNat
    (s.reg y).toNat (by rw [length_bytesFrom]; omega)
  simp only [spriteOn_bytesFrom] at hcells hcollision
  refine ⟨hcells, hcollision.trans ?_⟩
  simp [and_comm]

theorem exec_draw_of_inside {s : State} {n : Nibble} (x y : Nibble) (h : n = 0 ∨ s.byteAddr n.toNat ≤ 4096) :
    exec (.draw x y n) s = .next ((s.advance.setScreen (s.drawn x y n).1).setFlag (s.drawn x y n).2) := by
  have hend : s.byteAddr n.toNat = s.byteAddr 0 + n.toNat := rfl
  have hin : ∀ k, k < n.toNat → s.byteAddr 0 + k < 4096 := by
    intro k hk
    obtain rfl | h := h
    · exact absurd hk (Nat.not_lt_zero k)
    · omega
  exact attempt_eq_next.2 (.inr ⟨_, drawSprite_eq_ok.2 ⟨hin, rfl⟩, rfl⟩)

theorem flagByte_eq_one {c : Bool} : flagByte c = 1 ↔ c = true := by cases c <;> simp [flagByte]

/-- Settles O36, by whether the sprite lies in memory. -/
theorem drawInvertsTheCoveredCells : Obligations.DrawInvertsTheCoveredCells := by
  intro s x y n
  constructor
  · intro hin
    obtain ⟨hcells, hcollision⟩ := drawn_spec s x y n
    have hflag := reg_setFlag_VF (s.advance.setScreen (s.drawn x y n).1) (s.drawn x y n).2
    exact ⟨_, exec_draw_of_inside x y hin, hcells, hflag.symm ▸ flagByte_eq_one.trans hcollision,
      hflag.symm ▸ flagByte_eq _, fun r hr => reg_setFlag_of_ne (List.ne_of_not_mem_cons hr) _ _, rfl,
      (((sameOutside_advance s).trans (sameOutside_setScreen _ _)).mono (by decide)).setReg (by decide)⟩
  · intro hsome hout
    have hpos : 0 < n.toNat := Nat.pos_of_ne_zero fun h => hsome (BitVec.eq_of_toNat_eq h)
    exact traps_of_attempt rfl (drawSprite_eq_error.2 (memReadBytes_of_outside hpos hout))

/-- Settles O37: the first draw keeps the sprite and its place, and inverting the covered cells again restores them; a covered
cell is set at the second draw exactly when it was dark at first. -/
theorem drawTwiceRestoresTheScreen : Obligations.DrawTwiceRestoresTheScreen := by
  intro s x y n hx hy hin
  obtain ⟨t, ht, htcells, -, -, htregs, -, htframe⟩ := (drawInvertsTheCoveredCells s x y n).1 hin
  have hmem : t.mem = s.mem := (exec_mem ht).resolve_right (by simp [writtenParts])
  have hindex : t.i = s.i := htframe .index (by decide)
  have haddr (k : Nat) : t.byteAddr k = s.byteAddr k := by rw [State.byteAddr, hindex, State.byteAddr]
  have htx : t.reg x = s.reg x := htregs x (by simpa using hx)
  have hty : t.reg y = s.reg y := htregs y (by simpa using hy)
  obtain ⟨u, hu, hucells, hflag, -⟩ := (drawInvertsTheCoveredCells t x y n).1 (by rwa [haddr])
  rw [hmem, haddr, htx, hty] at hucells hflag
  refine ⟨t, u, ht, hu, Screen.ext_cell fun px py => ?_, hflag.trans ?_⟩
  · rw [Bool.eq_iff_iff, hucells, htcells]
    tauto
  · refine exists_congr fun px => exists_congr fun py => and_congr_left fun hcovered => ?_
    rw [htcells, ← Bool.not_eq_true]
    tauto

/-! ### The key skips (43_io_timers.md R242, R243) -/

theorem attempt_keyOperand {s : State} {b : Byte} (h : b.toNat < 16) (k : Key → Result) :
    attempt s (keyOperand b) k = k ⟨b.toNat, h⟩ := by
  have hcheck : keyOperand b = .ok ⟨b.toNat, h⟩ := keyOperand_eq_ok.2 rfl
  rw [hcheck, attempt_ok]

/-- Settles O38, by whether `Vx` is a key: the skip tests its held flag. -/
theorem keySkipsTestTheHeldKey : Obligations.KeySkipsTestTheHeldKey := by
  intro s x
  constructor
  · intro hkey
    exact ⟨completes_of_skip (attempt_keyOperand hkey _) id id,
      completes_of_skip (attempt_keyOperand hkey _) (congrArg not) (congrArg not)⟩
  · intro hnone
    have hcheck := keyOperand_eq_error.2 ⟨hnone, rfl⟩
    exact ⟨traps_of_attempt rfl hcheck, traps_of_attempt rfl hcheck⟩

/-! ### The waiting key read (43_io_timers.md R245) -/

theorem stepPort_of_waitsForKey {s : State} (h : s.waitsForKey = true) (r : Byte) : s.stepPort r = .ok (.retry, s) := by
  obtain ⟨hs, -⟩ := waitsForKey_iff.1 h
  exact stepPort_eq_ok.2 (.inl ⟨_, step_of_waitsForKey (s := s.setRandom [r] s.draws) h,
    (outcomeTag_eq_retry.2 ⟨hs, h⟩).symm, rfl⟩)

/-- Settles O40: with nothing pending the step waits, and a press puts a key in the latch, which the same step consumes. -/
theorem waitingKeyReadRetriesUntilAKey : Obligations.WaitingKeyReadRetriesUntilAKey := by
  intro s x r hs hf hlatch
  have hdecode := decode_eq_ok.2 (decodeRow_encode (i := .keyGet x) rfl)
  refine ⟨stepPort_of_waitsForKey (waitsForKey_iff.2 ⟨hs, hlatch, _, x, hf, hdecode⟩) r, fun k => ?_⟩
  have hstep : step ((s.pressKey k).setRandom [r] s.draws) = _ :=
    (step_of_fetch_encode (s := (s.pressKey k).setRandom [r] s.draws) hs rfl hf).trans (exec_keyGet_of_pending x rfl)
  have hwaits : (s.pressKey k).waitsForKey = false := by
    rw [Bool.eq_false_iff]
    intro h
    obtain ⟨-, hnone, -⟩ := waitsForKey_iff.1 h
    cases hnone
  refine ⟨_, stepPort_of_completed hstep hs hwaits, ?_, rfl⟩
  simp [toNat_keyByte]

end Sys2Proof.Machine
end

section
/-! PROOFS. The host's statements (60_exceptions.md R282): the ports that read or write one part, what reset leaves, that a
faulted core stays faulted, and the boot protocol. -/

namespace Sys2Proof.Machine

/-! ### Timers, keys and the framebuffer (43_io_timers.md R249, 20_memory.md R89, R97) -/

/-- Settles O42: both timers decay, and nothing else is written. -/
theorem timersDecayAndSaturate : Obligations.TimersDecayAndSaturate := by
  intro c n
  exact ⟨_, transact_tickTimers c n, toNat_decayTimer _ _, toNat_decayTimer _ _, rfl, rfl,
    (sameOutside_setDelayTimer _ _).trans (sameOutside_setSoundTimer _ _)⟩

/-- Settles O44: the held flags are written as a whole, and a key that does not exist is refused. -/
theorem resetKeysKeepsTheLatch : Obligations.ResetKeysKeepsTheLatch := by
  intro c
  refine ⟨⟨_, transact_resetKeys c, fun k => ?_, rfl, rfl, sameOutside_setHeld _ _⟩, fun k hk => ?_⟩
  · simp [State.releaseKeys]
  · exact dif_neg hk.not_gt

/-- The rows joined are the cells of the screen, one row after another. -/
theorem flatten_framebuffer (s : State) : s.framebuffer.flatten = s.fb.flatten.toList := by
  rw [State.framebuffer]
  obtain ⟨rows, hrows⟩ := s.fb
  simp only [Vector.flatten_mk, Vector.toList_mk, Array.toList_flatten, Array.toList_map, List.map_map]
  rfl

/-- Settles O47: 64 cells to a row. -/
theorem framebufferIsRowMajor : Obligations.FramebufferIsRowMajor := by
  intro c x y
  refine ⟨_, transact_readFramebuffer c, ?_⟩
  have hx := x.isLt
  have hy := y.isLt
  have hrow : (y.val * 64 + x.val) / 64 = y.val := by omega
  have hcolumn : (y.val * 64 + x.val) % 64 = x.val := by omega
  rw [flatten_framebuffer, List.getElem?_eq_getElem (by rw [Vector.length_toList]; omega), Vector.getElem_toList,
    Vector.getElem_flatten]
  simp only [hrow, hcolumn]
  rfl

/-- Settles O48: each component of the reset state is a literal, and the empty memory list reads as its reset contents. -/
theorem resetLeavesTheListedValues : Obligations.ResetLeavesTheListedValues := by
  intro c
  refine ⟨_, transact_reset c, rfl, fun x => ?_, rfl, rfl, fun k => ?_, rfl, rfl, fun a ha => if_pos ha,
    fun a ha => if_neg ha.not_gt, cell_blank, fun k => ?_, rfl, rfl⟩
  · simp [State.resetPort, State.reset, State.reg]
  · simp [State.resetPort, State.reset]
  · simp [State.resetPort, State.reset]

/-! ### A faulted core (10_state.md R47, 60_exceptions.md R262) -/

/-- Every transaction but reset leaves a faulted core faulted: a load that fails sets another condition, a step reports the
one it has, and the others do not write `Status`. -/
theorem faulted_of_transact {c c' : Session} {t : Transaction} {r : Reply} (hc : c.block.status ≠ .running)
    (hreset : t ≠ .reset) (h : transact c t = .ok (r, c')) : c'.block.status ≠ .running := by
  cases t with
  | reset => exact absurd rfl hreset
  | loadProgram bytes =>
    obtain ⟨-, ⟨-, rfl⟩ | ⟨-, rfl⟩⟩ := transact_loadProgram_cases h
    · exact hc
    · exact nofun
  | setKey k =>
    obtain ⟨hk, -, rfl⟩ := transact_setKey_eq_ok.1 h
    exact hc
  | step b =>
    obtain ⟨-, o, s, hport, -, rfl⟩ := transact_step_eq_ok.1 h
    cases hs : c.block.status with
    | running => exact absurd hs hc
    | faulted e =>
      obtain ⟨rfl, rfl⟩ := Prod.mk.inj (Except.ok.inj ((stepPort_of_faulted hs b).symm.trans hport))
      exact hc
  | resetKeys | tickTimers n | readFramebuffer | readSoundActive | readFault =>
    cases h
    exact hc

/-- Settles O10: the step and its port report the condition, no transaction but reset clears it, and the `fault` output is
read from `Status`. -/
theorem faultedCoreStaysFaulted : Obligations.FaultedCoreStaysFaulted := by
  refine ⟨fun s e hs => ⟨step_of_faulted hs, stepPort_of_faulted hs⟩, fun c c' t r => faulted_of_transact,
    fun c => ⟨_, transact_reset c, rfl⟩, fun c => ⟨fun e hs => ?_, fun hs => ?_⟩⟩
  · rw [transact_readFault, State.faultOutput, hs]
  · rw [transact_readFault, State.faultOutput, hs]

/-! ### The boot protocol (20_memory.md R94, 60_exceptions.md R272) -/

theorem load_refused {c : Session} (h : c.phase ≠ .fresh) (bytes : List Byte) :
    transact c (.loadProgram bytes) = .error .loadNotAllowed := by
  cases hphase : c.phase with
  | fresh => exact absurd hphase h
  | loaded | loadFailed | stepped => simp only [transact, hphase]

theorem step_refused {c : Session} (h : c.phase = .loadFailed) (r : Byte) :
    transact c (.step r) = .error .stepAfterFailedLoad := by
  simp only [transact, h]

theorem phase_of_transact {c c' : Session} {t : Transaction} {r : Reply} (h : transact c t = .ok (r, c'))
    (ht : ¬MovesPhase t) : c'.phase = c.phase := by
  cases t with
  | reset | loadProgram _ | step _ => exact absurd trivial ht
  | setKey k =>
    obtain ⟨hk, -, rfl⟩ := transact_setKey_eq_ok.1 h
    rfl
  | resetKeys | tickTimers _ | readFramebuffer | readSoundActive | readFault =>
    cases h
    rfl

/-- The phase after a load is one of the two that a load leads to. -/
theorem phase_of_load {c c' : Session} {bytes : List Byte} {r : Reply}
    (h : transact c (.loadProgram bytes) = .ok (r, c')) :
    c'.phase = if bytes.length ≤ 3584 then .loaded else .loadFailed := by
  obtain ⟨-, ⟨hfits, rfl⟩ | ⟨hexceeds, rfl⟩⟩ := transact_loadProgram_cases h
  · exact (if_pos hfits).symm
  · exact (if_neg hexceeds.not_ge).symm

theorem phase_of_step {c c' : Session} {b : Byte} {r : Reply} (h : transact c (.step b) = .ok (r, c')) :
    c'.phase = .stepped := by
  obtain ⟨-, o, s, -, -, rfl⟩ := transact_step_eq_ok.1 h
  rfl

/-- Without a reset, a session that is not fresh stays so, and one whose load failed stays there. -/
theorem phase_of_transact_of_ne_reset {c c' : Session} {t : Transaction} {r : Reply} (ht : t ≠ .reset)
    (hc : c.phase ≠ .fresh) (h : transact c t = .ok (r, c')) :
    c'.phase ≠ .fresh ∧ (c.phase = .loadFailed → c'.phase = .loadFailed) := by
  cases t with
  | reset => exact absurd rfl ht
  | loadProgram bytes => exact absurd (transact_loadProgram_eq_ok.1 h).1 hc
  | step b =>
    obtain ⟨hadmitted, -⟩ := transact_step_eq_ok.1 h
    exact ⟨phase_of_step h ▸ nofun, fun hfailed => absurd hfailed hadmitted⟩
  | setKey _ | resetKeys | tickTimers _ | readFramebuffer | readSoundActive | readFault =>
    have hphase : c'.phase = c.phase := phase_of_transact h id
    exact ⟨hphase ▸ hc, hphase.trans⟩

/-- The same over any list of transactions. -/
theorem phase_of_transactAll {c d : Session} {ts : List Transaction} (hts : .reset ∉ ts) (hc : c.phase ≠ .fresh)
    (h : transactAll c ts = .ok d) : d.phase ≠ .fresh ∧ (c.phase = .loadFailed → d.phase = .loadFailed) := by
  induction ts generalizing c with
  | nil => cases h; exact ⟨hc, id⟩
  | cons t ts ih =>
    obtain ⟨r, c', ht, hrest⟩ := transactAll_cons_eq_ok.1 h
    obtain ⟨hhead, htail⟩ := not_or.1 (List.mem_cons.not.1 hts)
    obtain ⟨hc', hfailed'⟩ := phase_of_transact_of_ne_reset (Ne.symm hhead) hc ht
    obtain ⟨hd, hfailed⟩ := ih htail hc' hrest
    exact ⟨hd, hfailed ∘ hfailed'⟩

/-- Settles O46: the phase after a load or a step is not fresh, and no list of transactions without a reset makes it so. -/
theorem loadOnlyOnceBeforeTheFirstStep : Obligations.LoadOnlyOnceBeforeTheFirstStep := by
  refine ⟨fun c c' t p => phase_of_transact, fun c c' d bytes p ts hload hts hall => ?_,
    fun c c' d r p ts hstep hts hall => ?_, fun c bytes => ?_⟩
  · have hphase := phase_of_load hload
    have hnotFresh : c'.phase ≠ .fresh := by
      rw [hphase]
      split <;> simp
    obtain ⟨hd, hfailed⟩ := phase_of_transactAll hts hnotFresh hall
    exact ⟨load_refused hd, fun hexceeds => step_refused (hfailed (hphase.trans (if_neg hexceeds.not_ge)))⟩
  · exact load_refused (phase_of_transactAll hts (phase_of_step hstep ▸ nofun) hall).1
  · exact ⟨_, _, _, transact_reset c, transact_loadProgram_eq_ok.2 ⟨rfl, rfl⟩⟩

end Sys2Proof.Machine
end
